-- ==== Sys2Proof/Word.lean ====
section
/-! DEFINITION. The block's value types (spec/00_scope.md R5, R7): every value is an unsigned bit vector. -/

namespace Sys2Proof

/-- One byte of the stream: 8 bits (R5, R31). -/
abbrev Byte := BitVec 8

/-- `u32`: the accumulator, the seed, the length counter and every intermediate value (R5). -/
abbrev Word := BitVec 32

/-- `u64`: what a FIN sends on the response port (R36, R45). -/
abbrev Response := BitVec 64

/-- The opcode field `op` of a command word: bits 35 to 32 (R46). -/
abbrev Opcode := BitVec 4

/-- A word of the command port: exactly 36 bits (R46, `CMD_BITS` of R6). -/
abbrev CmdWord := BitVec 36

/-- The status port `status_o` (R17). -/
abbrev StatusWord := BitVec 4

end Sys2Proof
end

