-- ==== Sys2Proof/Config.lean ====
section
/-! DEFINITION. What the spec fixes for the hardware (spec/00_scope.md R6) and the one value it leaves open
(spec/43_finish.md R86). -/

namespace Sys2Proof.Config

/-- `RESET_SEED` (R6, D15): SEED and ACC after hardware reset. The spec sets it to 0. DEDUCED, log 8. -/
def resetSeed : Word := 0x00000000

/-- `BEAT_BYTES` (R6, D7): the most bytes one write command carries. -/
def beatBytes : Nat := 4

/-- FREE VALUE (R86, U1): the response of the n-th FIN performed while OVF = 1. It has no body, so nothing can be
proved of it: not that it is zero-extended, not that two draws agree, not that it is the wrapped-length digest. Safe. DESIGN CHOICE, log 3. -/
opaque freeResponse : Nat → Response

end Sys2Proof.Config
end

