-- ==== Sys2Proof/Syntax.lean ====
section
/-! DEFINITION. The eight commands, one constructor per row of spec/opcode_table.json (spec/30_encoding.md R48).
A constructor holds what the command reads of its `data` field (R47) and nothing of the ignored bits (R50). -/

namespace Sys2Proof

/-- A command of the block. Bytes are in stream order: `b0` is the first (R34, R47). -/
inductive Instr where
  /-- WR0: write no bytes (R75). -/
  | wr0
  /-- WR1: write one byte (R77). -/
  | wr1 (b0 : Byte)
  /-- WR2: write two bytes (R78). -/
  | wr2 (b0 b1 : Byte)
  /-- WR3: write three bytes (R79). -/
  | wr3 (b0 b1 b2 : Byte)
  /-- WR4: write four bytes (R80). -/
  | wr4 (b0 b1 b2 b3 : Byte)
  /-- INIT: load the seed and begin a fresh computation (R70). -/
  | init (seed : Word)
  /-- START: begin a fresh computation with the stored seed (R71). -/
  | start
  /-- FIN: respond with the digest of the stream written so far (R85). -/
  | fin
  deriving DecidableEq, Repr

end Sys2Proof
end

