-- ==== Sys2Proof/WellFormed.lean ====
section
/-! DEFINITION. Well-formedness: of a command, of a beat, and of a raw word on the command port.

A command's operands have exactly the width of their fields (R47), and the spec gives every operand value a meaning
("Every 32-bit value is a legal seed", R70; "any byte sequence (including empty) is valid input", R76), so no term of
`Instr` is ill-formed. What can be ill-formed is a beat of more than `BEAT_BYTES` bytes, a word with a reserved opcode
(R52), and a word that is not in canonical form (R50). -/

namespace Sys2Proof

/-- Every command is well-formed: its constructor's types are the fields of R47. -/
def Instr.wellFormed : Instr → Bool
  | .wr0 => true
  | .wr1 _ => true
  | .wr2 _ _ => true
  | .wr3 _ _ _ => true
  | .wr4 _ _ _ _ => true
  | .init _ => true
  | .start => true
  | .fin => true

/-- A beat is at most `BEAT_BYTES` bytes (R36, R76). -/
def beatWellFormed (X : List Byte) : Bool := decide (X.length ≤ Config.beatBytes)

/-- The eight reserved values of `op`, as R52 lists them. -/
def reservedOpcodes : List Opcode := [0b0101, 0b0110, 0b0111, 0b1011, 0b1100, 0b1101, 0b1110, 0b1111]

/-- The word's opcode is one of the eight defined ones (R48, R52). A host "must not present a reserved opcode" (R115). -/
def CmdWord.wellFormed (w : CmdWord) : Bool := !(reservedOpcodes.contains (w.extractLsb' 32 4))

end Sys2Proof
end

