-- ==== Sys2Proof/Decode.lean ====
section
/-! DEFINITION. Decoder and encoder of the 36-bit command word (spec/30_encoding.md R46 to R52, R54). -/

namespace Sys2Proof

/-- `op`: bits 35 to 32 of the command word (R46). -/
def opOf (w : CmdWord) : Opcode := w.extractLsb' 32 4

/-- `data`: bits 31 to 0 of the command word (R46). -/
def dataOf (w : CmdWord) : Word := w.extractLsb' 0 32

/-- Byte lane `i` of a data field: `data[8i+7 : 8i]` (R34). DESIGN CHOICE, log 16: the value for `i` above 3. -/
def lane (i : Nat) (d : Word) : Byte := d.extractLsb' (8 * i) 8

/-- `beat(n, data)`: the bytes of lanes 0 to n-1, lane 0 first (R47). -/
def beat (n : Nat) (d : Word) : List Byte := (List.range n).map fun i => lane i d

/-- What a word of the command port decodes to: one of the eight commands, or *reserved* (R51). -/
inductive Decoded where
  /-- A defined command. -/
  | command (i : Instr)
  /-- Rejected by name: the opcode is one of the eight reserved values (R52). -/
  | reserved (op : Opcode)
  deriving DecidableEq, Repr

/-- The opcode map (R48) with the operand fields of R47. Total on all 2^36 words, by `op` alone (R51). -/
def decode (w : CmdWord) : Decoded :=
  let d := dataOf w
  match (opOf w).toNat with
  | 0 => .command .wr0
  | 1 => .command (.wr1 (lane 0 d))
  | 2 => .command (.wr2 (lane 0 d) (lane 1 d))
  | 3 => .command (.wr3 (lane 0 d) (lane 1 d) (lane 2 d))
  | 4 => .command (.wr4 (lane 0 d) (lane 1 d) (lane 2 d) (lane 3 d))
  | 8 => .command (.init d)
  | 9 => .command .start
  | 10 => .command .fin
  | _ => .reserved (opOf w)

/-- The command a word decodes to, if it decodes to one. -/
def Decoded.toInstr? : Decoded → Option Instr
  | .command i => some i
  | .reserved _ => none

/-- Instruction read from the bits of `w`, numbered as spec/opcode_table.json numbers them. A command is one word of
36 bits (R46), so a number that needs more bits is no command word; a table row's bits above 35 are zeros. DESIGN CHOICE, log 9. -/
def decodeTableWord (_nbits w : Nat) : Option Instr :=
  if w < 2 ^ 36 then (decode (BitVec.ofNat 36 w)).toInstr? else none

/-- `{op, data}` as one word: `op * 2^32 + data` (R46). -/
def commandWord (op : Opcode) (data : Word) : CmdWord := (op.setWidth 36 <<< 32) ||| data.setWidth 36

/-- Four lanes as one data field, lane 0 in bits 7 to 0 (R34). -/
def lanes (l0 l1 l2 l3 : Byte) : Word :=
  (l3.setWidth 32 <<< 24) ||| (l2.setWidth 32 <<< 16) ||| (l1.setWidth 32 <<< 8) ||| l0.setWidth 32

/-- The command's opcode (R48). -/
def Instr.opcode : Instr → Opcode
  | .wr0 => 0b0000
  | .wr1 _ => 0b0001
  | .wr2 _ _ => 0b0010
  | .wr3 _ _ _ => 0b0011
  | .wr4 _ _ _ _ => 0b0100
  | .init _ => 0b1000
  | .start => 0b1001
  | .fin => 0b1010

/-- The canonical data field: every ignored bit is 0 (R50, R54). -/
def Instr.data : Instr → Word
  | .wr0 => 0
  | .wr1 b0 => lanes b0 0 0 0
  | .wr2 b0 b1 => lanes b0 b1 0 0
  | .wr3 b0 b1 b2 => lanes b0 b1 b2 0
  | .wr4 b0 b1 b2 b3 => lanes b0 b1 b2 b3
  | .init seed => seed
  | .start => 0
  | .fin => 0

/-- The canonical word of a command, which the assembler notation of R54 produces. -/
def encode (i : Instr) : CmdWord := commandWord i.opcode i.data

/-- The bits of a word that take part in anything, for each opcode: the opcode field and the bits that the patterns of
R49 do not mark `x`. Of a reserved word only the opcode does ("`data` plays no part", T11.22). -/
def readMask (op : Opcode) : CmdWord :=
  match op.toNat with
  | 1 => 0xF000000FF
  | 2 => 0xF0000FFFF
  | 3 => 0xF00FFFFFF
  | 4 => 0xFFFFFFFFF
  | 8 => 0xFFFFFFFFF
  | _ => 0xF00000000

/-- A word in canonical form: every ignored bit is 0 (R50). -/
def CmdWord.canonical (w : CmdWord) : Bool := w &&& readMask (opOf w) == w

end Sys2Proof
end

