-- ==== Sys2Proof/Machine/State.lean ====
section
/-! DEFINITION. The state: the block's seven items (spec/10_state.md R10), what stands at its ports (spec/30_encoding.md
R45) and what the host does there (spec/70_reset_and_hazards.md R115); the reasons a step stops; the state after reset. -/

namespace Sys2Proof.Machine

/-- The complete architectural state of one block: the seven items of R10 and nothing else. -/
structure Block where
  /-- SEED (R12): the seed of the current computation and of every later START. -/
  seed : Word
  /-- ACC (R11): the running hash over all whole words of the stream. -/
  acc : Word
  /-- LEN (R13): the count of stream bytes folded into ACC, modulo 2^32. -/
  len : Word
  /-- CNT (R14): how many bytes TAIL holds. Equal to the length of `tail` in every reachable state (R18 (c)). Safe. DESIGN CHOICE, log 7. -/
  cnt : BitVec 2
  /-- TAIL (R14): the stream bytes not yet folded, oldest first; slots at CNT and above have no value. -/
  tail : List Byte
  /-- OVF (R15): the stream has reached 2^32 bytes. -/
  ovf : Bool
  /-- ILL (R16): a reserved command was presented since reset. -/
  ill : Bool
  deriving DecidableEq, Repr

/-- One move of the host at the block's ports (R115). -/
inductive HostMove where
  /-- Present a command word on `cmd` until it is accepted (R45). -/
  | present (w : CmdWord)
  /-- Hold `rsp_ready`: take the oldest waiting response, if one waits (R45). DESIGN CHOICE, log 10. -/
  | takeResponse
  /-- Read `status_o` (R17). -/
  | readStatus
  /-- Assert `rst`. `cutOff` is the word presented and not yet accepted when reset begins, if any: it is not
  performed (R105). DESIGN CHOICE, log 5. -/
  | assertReset (cutOff : Option CmdWord)
  deriving DecidableEq, Repr

/-- What the host gets back (R114, R115). -/
inductive Observation where
  /-- A response delivered on the response port. -/
  | response (v : Response)
  /-- STATUS, as of the last completed command. -/
  | status (v : StatusWord)
  deriving DecidableEq, Repr

/-- The machine: one block, its ports and the host driving it. -/
structure State where
  /-- The architectural state (R10). -/
  block : Block
  /-- The moves the host has still to make, next one first: the model's own field. DESIGN CHOICE, log 1. -/
  inputs : List HostMove
  /-- Responses produced and not yet delivered, oldest first (R45, R105). DEDUCED, log 4. -/
  rspQueue : List Response
  /-- What the host has got back so far, oldest first (R114): the model's own field. DESIGN CHOICE, log 6. -/
  observed : List Observation
  /-- How many unspecified responses (R86) have been drawn: the model's own field, an index of
  `Config.freeResponse`. DESIGN CHOICE, log 3. -/
  draws : Nat
  deriving DecidableEq, Repr

/-- Why a step stops with a fault. -/
inductive Fault where
  /-- Raised by the acceptance of a word with a reserved opcode and by nothing else: "A model must treat the acceptance
  of a reserved command as a *fault*" (R52, U2). `after` is the state the hardware is left in: ILL set, nothing else
  changed (R52). Safe: the model stops where the hardware carries on. DESIGN CHOICE, log 2. -/
  | reservedCommand (after : State)
  deriving DecidableEq, Repr

/-- Why an instruction has no meaning. -/
inductive Refusal where
  /-- An instruction the model does not give a meaning yet. Raised by no arm of `exec`: all eight commands have one.
  Safe. -/
  | notModelled (mnemonic : String)
  deriving DecidableEq, Repr

/-- The machine right after hardware reset (R23, R105): `Fresh(RESET_SEED)` with both flags clear and no response
waiting. DESIGN CHOICE: no host move is placed (log 1), nothing has been observed (log 6) and no free response drawn (log 3). -/
def State.reset : State where
  block :=
    { seed := Config.resetSeed
      acc := Config.resetSeed
      len := 0
      cnt := 0
      tail := []
      ovf := false
      ill := false }
  inputs := []
  rspQueue := []
  observed := []
  draws := 0

end Sys2Proof.Machine
end

