-- ==== Sys2Proof/Machine/Flags.lean ====
section
/-! DEFINITION. The two sticky flags and the STATUS view (spec/10_state.md R15 to R17, spec/60_exceptions.md R91). -/

namespace Sys2Proof.Machine

/-- The folded length at which the next word brings the stream to 2^32 bytes (R15, R76). -/
def lastLen : Word := 0xFFFFFFFC

/-- OVF after a word is folded while LEN is `len` (R76): set at `lastLen`, else kept. -/
def ovfAfterFold (len : Word) (ovf : Bool) : Bool := if len = lastLen then true else ovf

/-- `ILL <- 1`, nothing else (R52). -/
def Block.markIllegal (b : Block) : Block := { b with ill := true }

/-- STATUS (R17): bits 1:0 are CNT, bit 2 is OVF, bit 3 is ILL. -/
def Block.status (b : Block) : StatusWord := BitVec.ofBool b.ill ++ BitVec.ofBool b.ovf ++ b.cnt

end Sys2Proof.Machine
end

