-- ==== Sys2Proof/Machine/Mix.lean ====
section
/-! DEFINITION. 32-bit arithmetic and the mixing functions (spec/40_primitives.md R60 to R67). None touches state. -/

namespace Sys2Proof.Machine

/-- `mul32(a, b) = (a * b) mod 2^32` (R60): the exact product, narrowed. -/
def mul32 (a b : Word) : Word := BitVec.ofNat 32 (a.toNat * b.toNat)

/-- `add32(a, b) = (a + b) mod 2^32` (R60): the exact sum, narrowed. -/
def add32 (a b : Word) : Word := BitVec.ofNat 32 (a.toNat + b.toNat)

/-- Left rotation by `r`, used for 0 < r < 32 (R61). DESIGN CHOICE, log 16: the value for any other `r`. -/
def rotl32 (x : Word) (r : Nat) : Word := (x <<< r) ||| (x >>> (32 - r))

/-- Logical right shift (R61). -/
def shr32 (x : Word) (r : Nat) : Word := x >>> r

/-- Little-endian word of four bytes: `b0` is bits 7 to 0 (R62, R33). -/
def le32 (b0 b1 b2 b3 : Byte) : Word :=
  (b3.setWidth 32 <<< 24) ||| (b2.setWidth 32 <<< 16) ||| (b1.setWidth 32 <<< 8) ||| b0.setWidth 32

/-- Little-endian-padded word of at most three bytes: missing high bytes are zero (R62). DESIGN CHOICE, log 16: the value
for more bytes. -/
def padword : List Byte → Word
  | [] => 0
  | b :: T => (padword T <<< 8) ||| b.setWidth 32

/-- `C1` (R63). -/
def mixC1 : Word := 0xCC9E2D51
/-- `C2` (R63). -/
def mixC2 : Word := 0x1B873593
/-- `M5` (R63). -/
def foldM5 : Word := 5
/-- `N` (R63). -/
def foldN : Word := 0xE6546B64
/-- `F1` (R63). -/
def avalancheF1 : Word := 0x85EBCA6B
/-- `F2` (R63). -/
def avalancheF2 : Word := 0xC2B2AE35

/-- Scramble (R64): multiply by `C1`, rotate left by `ROT1` = 15, multiply by `C2`. -/
def scramble (k : Word) : Word := mul32 (rotl32 (mul32 k mixC1) 15) mixC2

/-- Fold (R65): XOR the scrambled word in, rotate left by `ROT2` = 13, times 5 plus `N`. (The
constants stand on the left: with `N` on the right, comparing two states would count it down.) -/
def fold (h k : Word) : Word := add32 foldN (mul32 foldM5 (rotl32 (h ^^^ scramble k) 13))

/-- One `h ^= h >> s` step of Avalanche (R66). -/
def xorShift (h : Word) (s : Nat) : Word := h ^^^ shr32 h s

/-- Avalanche (R66): shifts `S1`, `S2`, `S3` = 16, 13, 16 and multipliers `F1`, `F2`. -/
def avalanche (h : Word) : Word :=
  xorShift (mul32 (xorShift (mul32 (xorShift h 16) avalancheF1) 13) avalancheF2) 16

/-- Finalize (R67): scramble the padded tail into a copy of the accumulator, XOR the total byte length
`len + |T|` in (C2), avalanche. DESIGN CHOICE, log 16: the value for a tail of more than three bytes. -/
def finalize (acc len : Word) (T : List Byte) : Word :=
  avalanche (acc ^^^ scramble (padword T) ^^^ add32 len (BitVec.ofNat 32 T.length))

end Sys2Proof.Machine
end

