-- ==== Sys2Proof/Machine/Ops.lean ====
section
/-! DEFINITION. The named operations every meaning is built from. There is no exception entry and no return from one:
the block has neither (spec/60_exceptions.md R90, R96, R97). -/

namespace Sys2Proof.Machine

/-- Replace the architectural state, leave the ports alone. -/
def State.setBlock (s : State) (b : Block) : State := { s with block := b }

/-- Consume the host's next move. -/
def State.setInputs (s : State) (l : List HostMove) : State := { s with inputs := l }

/-- `respond(v)` (R8): one more value waits on the response port, behind the earlier ones (R45). -/
def State.respond (s : State) (v : Response) : State := { s with rspQueue := s.rspQueue ++ [v] }

/-- Count one draw of the free value of R86. -/
def State.countDraw (s : State) : State := { s with draws := s.draws + 1 }

/-- The host gets one more thing back (R114). -/
def State.observe (s : State) (o : Observation) : State := { s with observed := s.observed ++ [o] }

/-- Enter `Fresh(s)` (R24), which "says nothing of `ILL`". -/
def Block.restart (b : Block) (s : Word) : Block :=
  { b with seed := s, acc := s, len := 0, cnt := 0, tail := [], ovf := false }

/-- The block is in `Fresh(s)` (R24). -/
def Block.IsFresh (s : Word) (b : Block) : Prop :=
  b.seed = s ∧ b.acc = s ∧ b.len = 0 ∧ b.cnt = 0 ∧ b.tail = [] ∧ b.ovf = false

/-- The remainder buffer takes the bytes `S`, at most three of them: TAIL and CNT together (R14). -/
def Block.setTail (b : Block) (S : List Byte) : Block := { b with tail := S, cnt := BitVec.ofNat 2 S.length }

/-- Fold one word: ACC, LEN and OVF as R76 has them. -/
def Block.foldWord (b : Block) (k : Word) : Block :=
  { b with acc := fold b.acc k, len := add32 b.len 4, ovf := ovfAfterFold b.len b.ovf }

/-- `Absorb(X)` (R76): the pending bytes, then the new ones; four or more of them make one word. DESIGN CHOICE, log 16: what
it leaves for more than four new bytes, which no command carries. -/
def Block.absorb (b : Block) (X : List Byte) : Block :=
  match b.tail ++ X with
  | s0 :: s1 :: s2 :: s3 :: rest => (b.foldWord (le32 s0 s1 s2 s3)).setTail rest
  | S => b.setTail S

/-- What every write command does with its beat (R76). -/
def State.write (s : State) (X : List Byte) : State := s.setBlock (s.block.absorb X)

/-- Begin a fresh computation with seed `seed` (R70, R71). -/
def State.begin (s : State) (seed : Word) : State := s.setBlock (s.block.restart seed)

/-- The digest of the stream written so far, on copies (R85). -/
def Block.digest (b : Block) : Word := finalize b.acc b.len b.tail

/-- FIN (R85, R86): one response. While OVF = 0 it is the digest, zero-extended; while OVF = 1 it is a fresh free
value. The block is not written. -/
def State.finish (s : State) : State :=
  if s.block.ovf then (s.respond (Config.freeResponse s.draws)).countDraw
  else s.respond (s.block.digest.setWidth 64)

/-- The state the hardware is left in when it accepts a reserved command (R52). -/
def State.afterReserved (s : State) : State := s.setBlock s.block.markIllegal

/-- Acceptance of a reserved command: a fault of the model (R52, U2) that records where the hardware goes. DESIGN CHOICE, log 2. -/
def acceptReserved (s : State) : Host.Outcome State Fault Refusal := .fault (.reservedCommand s.afterReserved)

/-- Hardware reset (R105): the block in the reset state of R23, undelivered responses dropped. What the host has
already got back and what it will do next are the host's; the index of the free value goes on. DESIGN CHOICE, logs 3 and 5. -/
def State.hardReset (s : State) : State := { s with block := State.reset.block, rspQueue := [] }

/-- `rsp_ready` is held (R45): the oldest waiting response is delivered; if none waits, nothing happens. DESIGN CHOICE, log 10. -/
def State.takeResponse (s : State) : State :=
  match s.rspQueue with
  | [] => s
  | v :: vs => { s with rspQueue := vs }.observe (.response v)

/-- The host reads `status_o` (R17, R115). A read has no side effect on the block (R36). -/
def State.readStatus (s : State) : State := s.observe (.status s.block.status)

end Sys2Proof.Machine
end

