-- ==== Sys2Proof/Machine/Control.lean ====
section
/-! DEFINITION. The control commands INIT and START (spec/41_control.md R70, R71). -/

namespace Sys2Proof.Machine

/-- INIT (R70): SEED and ACC get the seed, the stream is empty, OVF is cleared; ILL is kept; no response. -/
def execInit (seed : Word) (s : State) : Host.Outcome State Fault Refusal := .next (s.begin seed)

/-- START (R71): ACC gets SEED, the stream is empty, OVF is cleared; SEED and ILL are kept; no response. -/
def execStart (s : State) : Host.Outcome State Fault Refusal := .next (s.begin s.block.seed)

end Sys2Proof.Machine
end

