-- ==== Sys2Proof/Machine/Finish.lean ====
section
/-! DEFINITION. The finish command FIN (spec/43_finish.md R85, R86). -/

namespace Sys2Proof.Machine

/-- FIN (R85, R86): exactly one response, no register written. -/
def execFin (s : State) : Host.Outcome State Fault Refusal := .next s.finish

end Sys2Proof.Machine
end

