-- ==== Sys2Proof/Machine/Write.lean ====
section
/-! DEFINITION. The write commands WR0 to WR4 (spec/42_write.md R75 to R80). -/

namespace Sys2Proof.Machine

/-- WR0 (R75): `Absorb([])`, which changes nothing. -/
def execWr0 (s : State) : Host.Outcome State Fault Refusal := .next (s.write [])

/-- WR1 (R77): `Absorb([b0])`. -/
def execWr1 (b0 : Byte) (s : State) : Host.Outcome State Fault Refusal := .next (s.write [b0])

/-- WR2 (R78): `Absorb([b0, b1])`. -/
def execWr2 (b0 b1 : Byte) (s : State) : Host.Outcome State Fault Refusal := .next (s.write [b0, b1])

/-- WR3 (R79): `Absorb([b0, b1, b2])`. -/
def execWr3 (b0 b1 b2 : Byte) (s : State) : Host.Outcome State Fault Refusal := .next (s.write [b0, b1, b2])

/-- WR4 (R80): `Absorb([b0, b1, b2, b3])`. -/
def execWr4 (b0 b1 b2 b3 : Byte) (s : State) : Host.Outcome State Fault Refusal :=
  .next (s.write [b0, b1, b2, b3])

end Sys2Proof.Machine
end

