-- ==== Sys2Proof/Machine/Dispatch.lean ====
section
/-! DEFINITION. The one match from a command to its meaning. -/

namespace Sys2Proof.Machine

/-- Perform a command: one arm per row of spec/opcode_table.json. -/
def exec (i : Instr) (s : State) : Host.Outcome State Fault Refusal :=
  match i with
  | .wr0 => Sys2Proof.Machine.execWr0 s
  | .wr1 b0 => Sys2Proof.Machine.execWr1 b0 s
  | .wr2 b0 b1 => Sys2Proof.Machine.execWr2 b0 b1 s
  | .wr3 b0 b1 b2 => Sys2Proof.Machine.execWr3 b0 b1 b2 s
  | .wr4 b0 b1 b2 b3 => Sys2Proof.Machine.execWr4 b0 b1 b2 b3 s
  | .init seed => Sys2Proof.Machine.execInit seed s
  | .start => Sys2Proof.Machine.execStart s
  | .fin => Sys2Proof.Machine.execFin s

end Sys2Proof.Machine
end

