-- ==== Sys2Proof/Machine/Ports.lean ====
section
/-! DEFINITION. What each move of the host does to the block (spec/30_encoding.md R45, spec/70_reset_and_hazards.md
R105, R115). -/

namespace Sys2Proof.Machine

/-- The block accepts the word `w`: it performs the command `w` decodes to, or faults on a reserved one (R51, R52). -/
def acceptCommand (w : CmdWord) (s : State) : Host.Outcome State Fault Refusal :=
  match decode w with
  | .command i => exec i s
  | .reserved _ => acceptReserved s

/-- One move of the host, already taken off `inputs`. -/
def hostMove (m : HostMove) (s : State) : Host.Outcome State Fault Refusal :=
  match m with
  | .present w => acceptCommand w s
  | .takeResponse => .next s.takeResponse
  | .readStatus => .next s.readStatus
  | .assertReset _ => .next s.hardReset

/-- The moves still to come are `l`, and the next one presents the word `w`. -/
def presentFirst (w : CmdWord) (l : List HostMove) : List HostMove := .present w :: l

end Sys2Proof.Machine
end

