-- ==== Sys2Proof/Machine/Step.lean ====
section
/-! DEFINITION. One step of the machine: the block meets the host's next move. -/

namespace Sys2Proof.Machine

/-- One step. The host's next move is taken off `inputs` and met; with no move to meet nothing changes, since nothing
happens in the block "except in answer to a command or to reset" (R94, R115). DESIGN CHOICE, logs 1 and 11. -/
def step (s : State) : Host.Outcome State Fault Refusal :=
  match s.inputs with
  | [] => .next s
  | m :: rest => hostMove m (s.setInputs rest)

/-- `s` with the command of table bits `w` presented next, before whatever else the host will do. DESIGN CHOICE, logs 1 and 9. -/
def State.withFetchWord (s : State) (_nbits w : Nat) : State :=
  s.setInputs (presentFirst (BitVec.ofNat 36 w) s.inputs)

end Sys2Proof.Machine
end

