-- ==== Sys2Proof/Machine/Operands.lean ====
section
/-! DEFINITION. What a command carries (spec/30_encoding.md R47, R48). -/

namespace Sys2Proof.Machine

/-- The bytes a command adds to the stream, in stream order (R31, R47). -/
def carried : Instr → List Byte
  | .wr0 => []
  | .wr1 b0 => [b0]
  | .wr2 b0 b1 => [b0, b1]
  | .wr3 b0 b1 b2 => [b0, b1, b2]
  | .wr4 b0 b1 b2 b3 => [b0, b1, b2, b3]
  | .init _ => []
  | .start => []
  | .fin => []

/-- The write group (R46: `op[3] = 0`). -/
def isWrite : Instr → Bool
  | .wr0 => true
  | .wr1 _ => true
  | .wr2 _ _ => true
  | .wr3 _ _ _ => true
  | .wr4 _ _ _ _ => true
  | .init _ => false
  | .start => false
  | .fin => false

/-- The commands that do not begin a new computation: the write group and FIN. -/
def continuesStream : Instr → Bool
  | .wr0 => true
  | .wr1 _ => true
  | .wr2 _ _ => true
  | .wr3 _ _ _ => true
  | .wr4 _ _ _ _ => true
  | .init _ => false
  | .start => false
  | .fin => true

end Sys2Proof.Machine
end

