-- ==== Sys2Proof/Machine/Sequence.lean ====
section
/-! DEFINITION. Command sequences: performing one command after another (spec/20_memory.md R38), the assembler notation
and the pseudo-commands (spec/30_encoding.md R54, R55). -/

namespace Sys2Proof.Machine

/-- Perform commands one at a time, in order, each on the state the one before it left (R38). -/
def execAll : List Instr → State → Host.Outcome State Fault Refusal
  | [], s => .next s
  | i :: is, s =>
    match exec i s with
    | .next s' => execAll is s'
    | .fault r => .fault r
    | .refused r => .refused r

/-- The canonical expansion of `WRITE X` for a non-empty `X`, and nothing for an empty one (R55): `WR4` while four
bytes are left, then one shorter write. -/
def writeBeats : List Byte → List Instr
  | b0 :: b1 :: b2 :: b3 :: rest => .wr4 b0 b1 b2 b3 :: writeBeats rest
  | [b0, b1, b2] => [.wr3 b0 b1 b2]
  | [b0, b1] => [.wr2 b0 b1]
  | [b0] => [.wr1 b0]
  | [] => []

/-- `WRITE X` (R55): an empty `X` is one `WR0`. -/
def writeCommands (X : List Byte) : List Instr := if X = [] then [.wr0] else writeBeats X

/-- `HASH <seed>, X` (R55). -/
def hashCommands (seed : Word) (X : List Byte) : List Instr := .init seed :: (writeCommands X ++ [.fin])

/-- `REHASH X` (R55). -/
def rehashCommands (X : List Byte) : List Instr := .start :: (writeCommands X ++ [.fin])

/-- A line of the assembler notation, as abstract syntax (R54, R55). DESIGN CHOICE, log 12. -/
inductive AsmLine where
  /-- `INIT <seed>`, `START`, `FIN`, `WR0`, `WR1 <b0>` ... `WR4 <b0> <b1> <b2> <b3>`. -/
  | command (i : Instr)
  /-- `WR0 data=<d>`: ignored bits are assembled as 0. -/
  | wr0Data (d : Word)
  /-- `WR1 data=<d>`. -/
  | wr1Data (d : Word)
  /-- `WR2 data=<d>`. -/
  | wr2Data (d : Word)
  /-- `WR3 data=<d>`. -/
  | wr3Data (d : Word)
  /-- `WR4 data=<d>`. -/
  | wr4Data (d : Word)
  /-- `NOP`. -/
  | nop
  /-- `WRITE X`. -/
  | write (X : List Byte)
  /-- `WRITE "text"`: the ASCII bytes of the text, one per character, no terminator. -/
  | writeText (t : String)
  /-- `HASH <seed>, X`. -/
  | hash (seed : Word) (X : List Byte)
  /-- `REHASH X`. -/
  | rehash (X : List Byte)
  deriving DecidableEq, Repr

/-- The ASCII bytes of a text, one per character (R55). -/
def asciiBytes (t : String) : List Byte := t.toList.map fun c => BitVec.ofNat 8 c.toNat

/-- The commands a line stands for (R54, R55). -/
def AsmLine.commands : AsmLine → List Instr
  | .command i => [i]
  | .wr0Data _ => [.wr0]
  | .wr1Data d => [.wr1 (lane 0 d)]
  | .wr2Data d => [.wr2 (lane 0 d) (lane 1 d)]
  | .wr3Data d => [.wr3 (lane 0 d) (lane 1 d) (lane 2 d)]
  | .wr4Data d => [.wr4 (lane 0 d) (lane 1 d) (lane 2 d) (lane 3 d)]
  | .nop => [.wr0]
  | .write X => writeCommands X
  | .writeText t => writeCommands (asciiBytes t)
  | .hash seed X => hashCommands seed X
  | .rehash X => rehashCommands X

/-- The command words a line assembles to (R54). -/
def AsmLine.assemble (l : AsmLine) : List CmdWord := l.commands.map encode

end Sys2Proof.Machine
end

