-- ==== Sys2Proof/Machine/Stream.lean ====
section
/-! DEFINITION. The stream and its digest as functions of the bytes (spec/20_memory.md R31, R32, spec/42_write.md R81,
R83, spec/43_finish.md R87). The block stores none of this; the statements compare the block with it. -/

namespace Sys2Proof.Machine

/-- The whole words of a stream, in order (R32). -/
def wholeWords : List Byte → List Word
  | b0 :: b1 :: b2 :: b3 :: rest => le32 b0 b1 b2 b3 :: wholeWords rest
  | _ => []

/-- The partial word of a stream: its last `L mod 4` bytes (R32). -/
def partialWord : List Byte → List Byte
  | _ :: _ :: _ :: _ :: rest => partialWord rest
  | T => T

/-- `Fold(... Fold(Fold(s, w_0), w_1) ..., w_{q-1})` (R81). -/
def foldStream (s : Word) (B : List Byte) : Word := (wholeWords B).foldl fold s

/-- `Digest(s, B)` (R87), which the rule defines for `L < 2^32`. DESIGN CHOICE, log 16: for a longer `B` the spec gives no
digest (U1); the value here, with the length wrapped, only makes the function total. It is no value of the hardware: FIN
never responds with it by this function (R86), and a statement about a FIN takes `L < 2^32`. Unsafe if read as one. -/
def digest (s : Word) (B : List Byte) : Word :=
  avalanche (foldStream s B ^^^ scramble (padword (partialWord B)) ^^^ BitVec.ofNat 32 B.length)

/-- Step 2 and step 3 of `write(X)` (R83): fold the input's whole words, then let the rest extend the tail. -/
def Block.writeWords (b : Block) : List Byte → Block
  | x0 :: x1 :: x2 :: x3 :: rest => (b.foldWord (le32 x0 x1 x2 x3)).writeWords rest
  | T => b.setTail (b.tail ++ T)

/-- The source's `write(X)` of a slice of any length, as one operation (R83): complete a pending tail if the input has
enough bytes (step 1), then go on with what is left of the input. -/
def Block.writeSlice (b : Block) (X : List Byte) : Block :=
  match b.tail, X with
  | [t0], x0 :: x1 :: x2 :: rest => ((b.foldWord (le32 t0 x0 x1 x2)).setTail []).writeWords rest
  | [t0, t1], x0 :: x1 :: rest => ((b.foldWord (le32 t0 t1 x0 x1)).setTail []).writeWords rest
  | [t0, t1, t2], x0 :: rest => ((b.foldWord (le32 t0 t1 t2 x0)).setTail []).writeWords rest
  | [], _ => b.writeWords X
  | _, _ => b.setTail (b.tail ++ X)

/-- The block holds the stream `B` under its seed, as R81 and R92 say: ACC is the seed folded with the whole words,
LEN the folded length modulo 2^32, TAIL the partial word, OVF whether the stream has reached 2^32 bytes (R15). -/
def Block.Holds (b : Block) (B : List Byte) : Prop :=
  b.acc = foldStream b.seed B ∧ b.len = BitVec.ofNat 32 (4 * (B.length / 4)) ∧ b.tail = partialWord B ∧
    b.cnt = BitVec.ofNat 2 B.length ∧ b.ovf = decide (2 ^ 32 ≤ B.length)

end Sys2Proof.Machine
end

