-- ==== Sys2Proof/Machine/CarryOn.lean ====
section
/-! DEFINITION. What the hardware does where the model stops with a fault (spec/30_encoding.md R52: "the block goes on
to accept the next command as usual"). The rules about ILL (R16, R97) speak of this. -/

namespace Sys2Proof.Machine

/-- The state a fault leaves the hardware in. -/
def faultState : Fault → State
  | .reservedCommand t => t

/-- One step of the hardware, which carries on past a reserved command. No arm of the model refuses, so the last case
is never met. -/
def hardwareStep (s : State) : State :=
  match step s with
  | .next t => t
  | .fault f => faultState f
  | .refused _ => s

end Sys2Proof.Machine
end

