-- ==== Sys2Proof/Safety.lean ====
section
/-! DEFINITION. What claims take as a premise: the invariants of the block (spec/10_state.md R18) and a host that
keeps to its duties (spec/70_reset_and_hazards.md R111, R115). -/

namespace Sys2Proof.Safety

open Sys2Proof.Machine

/-- R18 (a) to (c): at most three pending bytes, CNT is their number, LEN is a multiple of 4. -/
def blockOk (b : Block) : Bool :=
  decide (b.tail.length ≤ 3) && decide (b.cnt.toNat = b.tail.length) && decide (b.len.toNat % 4 = 0)

/-- The host's move presents no reserved opcode (R115). -/
def moveOk : HostMove → Bool
  | .present w => w.wellFormed
  | .takeResponse => true
  | .readStatus => true
  | .assertReset _ => true

/-- The host will present no reserved opcode, and has presented none since reset: "no reserved command, `ILL = 0`"
(R52, R111). -/
def hostOk (s : State) : Bool := s.inputs.all moveOk && !s.block.ill

end Sys2Proof.Safety
end

