-- ==== Sys2Proof/Certificates/Slice0/Obligations.lean ====
section
/-! DEFINITION. The statements for the provers, from the spec's numbered rules. Each docstring names the rule. -/

open Sys2Proof Sys2Proof.Machine Sys2Proof.Safety

/-! ### Encoding -/

/-- Words written out from the encodings of R49 and R54 decode to the commands they stand for (T11). -/
def Obligations.WorkedWordsDecode : Prop :=
  decode 0x0FFFFFFFF = .command .wr0 ∧
  decode 0x100000061 = .command (.wr1 0x61) ∧
  decode 0x2ABCD6261 = .command (.wr2 0x61 0x62) ∧
  decode 0x300636261 = .command (.wr3 0x61 0x62 0x63) ∧
  decode 0x4800000FF = .command (.wr4 0xFF 0x00 0x00 0x80) ∧
  decode 0x89747B28C = .command (.init 0x9747B28C) ∧
  decode 0x9FFFFFFFF = .command .start ∧
  decode 0xA00000000 = .command .fin ∧
  decode 0xF12345678 = .reserved 0b1111

/-- Decoding the word a command assembles to gives the command back, for every command and every operand. -/
def Obligations.DecodeOfEncodeIsTheCommand : Prop := ∀ i : Instr, decode (encode i) = .command i

/-- R50: the assembled word of a decoded command is that word with every ignored bit cleared, and is canonical. -/
def Obligations.EncodeOfDecodeClearsIgnoredBits : Prop :=
  ∀ (w : CmdWord) (i : Instr), decode w = .command i →
    encode i = w &&& readMask (opOf w) ∧ (encode i).canonical = true

/-- R49: each command by its match and mask, with its operand bits. -/
def Obligations.MatchAndMaskDecideTheCommand : Prop :=
  ∀ w : CmdWord,
    (w &&& 0xF00000000 = 0x000000000 ↔ decode w = .command .wr0) ∧
    (w &&& 0xF00000000 = 0x100000000 ↔ decode w = .command (.wr1 (w.extractLsb' 0 8))) ∧
    (w &&& 0xF00000000 = 0x200000000 ↔ decode w = .command (.wr2 (w.extractLsb' 0 8) (w.extractLsb' 8 8))) ∧
    (w &&& 0xF00000000 = 0x300000000 ↔
      decode w = .command (.wr3 (w.extractLsb' 0 8) (w.extractLsb' 8 8) (w.extractLsb' 16 8))) ∧
    (w &&& 0xF00000000 = 0x400000000 ↔
      decode w = .command
        (.wr4 (w.extractLsb' 0 8) (w.extractLsb' 8 8) (w.extractLsb' 16 8) (w.extractLsb' 24 8))) ∧
    (w &&& 0xF00000000 = 0x800000000 ↔ decode w = .command (.init (w.extractLsb' 0 32))) ∧
    (w &&& 0xF00000000 = 0x900000000 ↔ decode w = .command .start) ∧
    (w &&& 0xF00000000 = 0xA00000000 ↔ decode w = .command .fin)

/-- R51: the decoder is total, by `op` alone: a command of that opcode, or reserved. -/
def Obligations.DecoderIsTotalByOpcode : Prop :=
  ∀ w : CmdWord,
    (opOf w ∈ ([0b0000, 0b0001, 0b0010, 0b0011, 0b0100, 0b1000, 0b1001, 0b1010] : List Opcode) ∧
      (∃ i, decode w = .command i ∧ i.opcode = opOf w)) ∨
    (opOf w ∈ ([0b0101, 0b0110, 0b0111, 0b1011, 0b1100, 0b1101, 0b1110, 0b1111] : List Opcode) ∧
      decode w = .reserved (opOf w))

/-- R50: words that differ only in ignored bits are the same command and have the same effect on everything; the
assembled form has every ignored bit 0. -/
def Obligations.IgnoredBitsHaveNoEffect : Prop :=
  (∀ (w w' : CmdWord), opOf w = opOf w' → w &&& readMask (opOf w) = w' &&& readMask (opOf w) →
    decode w = decode w' ∧
    ∀ (s : State) (rest : List HostMove),
      step { s with inputs := .present w :: rest } = step { s with inputs := .present w' :: rest }) ∧
  (∀ i : Instr, encode i &&& readMask (opOf (encode i)) = encode i)

/-- R47: a write command carries the bytes of its lowest lanes, in lane order, and INIT takes `data` as it stands. -/
def Obligations.OperandsAreTheLanesOfData : Prop :=
  ∀ (w : CmdWord) (i : Instr), decode w = .command i →
    (isWrite i = true → carried i = beat (opOf w).toNat (dataOf w)) ∧
    (∀ seed, i = .init seed → seed = w.extractLsb' 0 32) ∧
    (∀ n d, n ≤ 4 → (beat n d).length = n ∧ ∀ k (h : k < (beat n d).length), (beat n d)[k] = d.extractLsb' (8 * k) 8)

/-- R54: the words the assembler notation stands for, as numbers; a `data=` form is the byte form of its lanes. -/
def Obligations.AssembledWordsAreThoseOfTheNotation : Prop :=
  (∀ seed : Word, (encode (.init seed)).toNat = 0x800000000 + seed.toNat) ∧
  encode .start = 0x900000000 ∧ encode .fin = 0xA00000000 ∧ encode .wr0 = 0x000000000 ∧
  (∀ b0 : Byte, (encode (.wr1 b0)).toNat = 0x100000000 + b0.toNat) ∧
  (∀ b0 b1 : Byte, (encode (.wr2 b0 b1)).toNat = 0x200000000 + b1.toNat * 2 ^ 8 + b0.toNat) ∧
  (∀ b0 b1 b2 : Byte,
    (encode (.wr3 b0 b1 b2)).toNat = 0x300000000 + b2.toNat * 2 ^ 16 + b1.toNat * 2 ^ 8 + b0.toNat) ∧
  (∀ b0 b1 b2 b3 : Byte, (encode (.wr4 b0 b1 b2 b3)).toNat =
    0x400000000 + b3.toNat * 2 ^ 24 + b2.toNat * 2 ^ 16 + b1.toNat * 2 ^ 8 + b0.toNat) ∧
  (∀ d : Word, (AsmLine.wr4Data d).assemble = [0x400000000 ||| d.setWidth 36]) ∧
  (∀ d : Word, (AsmLine.wr3Data d).assemble = [0x300000000 ||| (d &&& 0x00FFFFFF).setWidth 36]) ∧
  (∀ d : Word, (AsmLine.wr2Data d).assemble = [0x200000000 ||| (d &&& 0x0000FFFF).setWidth 36]) ∧
  (∀ d : Word, (AsmLine.wr1Data d).assemble = [0x100000000 ||| (d &&& 0x000000FF).setWidth 36]) ∧
  (∀ d : Word, (AsmLine.wr0Data d).assemble = [0x000000000])

/-! ### Stepping -/

/-- R38, R45: when the host presents a word that decodes to a command, a step takes the move off the host's list and
performs the command on that state; with no move a step changes nothing (R115). -/
def Obligations.StepPerformsThePresentedCommand : Prop :=
  (∀ (s : State) (w : CmdWord) (rest : List HostMove) (i : Instr),
    s.inputs = .present w :: rest → decode w = .command i → step s = exec i { s with inputs := rest }) ∧
  (∀ s : State, s.inputs = [] → step s = .next s) ∧
  (∀ (s : State) (n w : Nat) (i : Instr), decodeTableWord n w = some i → step (s.withFetchWord n w) = exec i s)

/-- R52: a reserved command is a fault of the model; the hardware sets ILL, changes nothing else of the block or its
ports and carries on; ILL then stays 1 until hardware reset. -/
def Obligations.ReservedCommandFaultsAndSetsIll : Prop :=
  (∀ (s : State) (w : CmdWord) (rest : List HostMove), s.inputs = .present w :: rest →
    opOf w ∈ ([0b0101, 0b0110, 0b0111, 0b1011, 0b1100, 0b1101, 0b1110, 0b1111] : List Opcode) →
      step s = .fault (.reservedCommand { s with inputs := rest, block := { s.block with ill := true } }) ∧
      hardwareStep s = { s with inputs := rest, block := { s.block with ill := true } }) ∧
  (∀ s : State, s.block.ill = true → (∀ c rest, s.inputs ≠ .assertReset c :: rest) →
    (hardwareStep s).block.ill = true)

/-- R16: ILL is set by a reserved command and by nothing else, cleared by hardware reset and by nothing else, and no
command's result depends on it (the free value of R86, which counts a draw, apart). -/
def Obligations.IllIsSetByReservedAndClearedByReset : Prop :=
  (∀ s : State, (hardwareStep s).block.ill =
    match s.inputs with
    | .present w :: _ => s.block.ill || (reservedOpcodes.contains (opOf w))
    | .assertReset _ :: _ => false
    | _ => s.block.ill) ∧
  (∀ (i : Instr) (s : State) (v : Bool), ∃ t u, exec i s = .next t ∧
    exec i { s with block := { s.block with ill := v } } = .next u ∧ u.block = { t.block with ill := v } ∧
    (t.draws = s.draws → u = { t with block := { t.block with ill := v } }))

/-- R90: no command can fail, for any operand, in any state. -/
def Obligations.NoCommandFails : Prop := ∀ (i : Instr) (s : State), ∃ t, exec i s = .next t

/-- R112, R52: a step goes on unless the host presents a reserved opcode, and then it faults; it never refuses. -/
def Obligations.StepStopsOnlyOnReserved : Prop :=
  ∀ s : State, (∃ t, step s = .next t) ∨
    ∃ w rest, s.inputs = .present w :: rest ∧ w.wellFormed = false ∧ ∃ t, step s = .fault (.reservedCommand t)

/-- R111, R112, R52: under a host that presents no reserved opcode and has presented none, a run of any length meets
every move and never stops. -/
def Obligations.WellBehavedHostNeverStops : Prop :=
  ∀ (n : Nat) (s : State), hostOk s = true →
    ∃ t : State, core.run n s = .next t ∧ hostOk t = true ∧ t.inputs = s.inputs.drop n

/-! ### Arithmetic and mixing -/

/-- R60: products and sums are reduced modulo 2^32. -/
def Obligations.ArithmeticIsModulo2Pow32 : Prop :=
  (∀ a b : Word, (mul32 a b).toNat = (a.toNat * b.toNat) % 2 ^ 32) ∧
  (∀ a b : Word, (add32 a b).toNat = (a.toNat + b.toNat) % 2 ^ 32) ∧
  mul32 0xFFFFFFFF 0xFFFFFFFF = 0x00000001 ∧ mul32 0x80000000 2 = 0 ∧ (∀ x, mul32 x 0 = 0) ∧
  add32 0xFFFFFFFF 1 = 0 ∧ mul32 0xCC9E2D51 0x61 = 0x87EF2BB1

/-- R61: the left rotation loses no bit, the right shift is logical. -/
def Obligations.RotateAndShiftMoveBits : Prop :=
  (∀ (x : Word) (r : Nat), 0 < r → r < 32 →
    (rotl32 x r).toNat = (x.toNat <<< r) % 2 ^ 32 ||| x.toNat >>> (32 - r) ∧
    (∀ i, i < 32 → (rotl32 x r).getLsbD ((i + r) % 32) = x.getLsbD i) ∧
    (shr32 x r).toNat = x.toNat / 2 ^ r ∧
    (∀ i, 32 - r ≤ i → (shr32 x r).getLsbD i = false) ∧
    rotl32 0 r = 0 ∧ rotl32 0xFFFFFFFF r = 0xFFFFFFFF) ∧
  rotl32 0x80000001 15 = 0x0000C000 ∧ rotl32 0x80000001 13 = 0x00003000 ∧ shr32 0x80000000 16 = 0x00008000 ∧
  rotl32 0x12345678 15 = 0x2B3C091A ∧ rotl32 0x12345678 13 = 0x8ACF0246

/-- R62: words are assembled little-endian, a partial word with zero high bytes. -/
def Obligations.WordsAreLittleEndian : Prop :=
  (∀ b0 b1 b2 b3 : Byte, (le32 b0 b1 b2 b3).toNat =
    b0.toNat + b1.toNat * 2 ^ 8 + b2.toNat * 2 ^ 16 + b3.toNat * 2 ^ 24) ∧
  padword [] = 0 ∧ (∀ b0 : Byte, (padword [b0]).toNat = b0.toNat) ∧
  (∀ b0 b1 : Byte, (padword [b0, b1]).toNat = b0.toNat + b1.toNat * 2 ^ 8) ∧
  (∀ b0 b1 b2 : Byte, padword [b0, b1, b2] = le32 b0 b1 b2 0) ∧
  le32 0x61 0x62 0x63 0x64 = 0x64636261 ∧ padword [0x21, 0x43, 0x65] = 0x00654321

/-- R64: Scramble by its three steps; it is a bijection, with the inverse of T2. -/
def Obligations.ScrambleIsABijection : Prop :=
  (∀ k : Word, scramble k = mul32 (rotl32 (mul32 k 0xCC9E2D51) 15) 0x1B873593) ∧
  (∀ k : Word, mul32 (rotl32 (mul32 (scramble k) 0x56ED309B) 17) 0xDEE13BB1 = k) ∧
  Function.Bijective scramble ∧
  scramble 0 = 0 ∧ scramble 1 = 0xC3539A5D ∧ scramble 0xFFFFFFFF = 0xBBEEB010 ∧ scramble 0x80000000 = 0xCD64C000 ∧
  scramble 0x00000061 = 0x504BA9D5 ∧ scramble 0x64636261 = 0x5B9433B7

/-- R65: Fold by its three steps; for a fixed word it is a bijection with the inverse the rule gives; the order of
words matters. -/
def Obligations.FoldIsABijectionAndOrdered : Prop :=
  (∀ h k : Word, fold h k = add32 (mul32 (rotl32 (h ^^^ scramble k) 13) 5) 0xE6546B64) ∧
  (∀ h k : Word, rotl32 (mul32 (add32 (fold h k) (BitVec.ofNat 32 (2 ^ 32 - 0xE6546B64))) 0xCCCCCCCD) 19 ^^^ scramble k = h) ∧
  (∀ k : Word, Function.Bijective fun h => fold h k) ∧
  (∃ h k1 k2 : Word, fold (fold h k1) k2 ≠ fold (fold h k2) k1) ∧
  fold 0 0 = 0xE6546B64 ∧ fold 0xFFFFFFFF 0xFFFFFFFF = 0xB849F5EE ∧ fold 0 0x64636261 = 0x86A7049E ∧
  fold 0x9747B28C 0x61616161 = 0x720C8863

/-- R66: Avalanche by its five steps; it is a bijection. -/
def Obligations.AvalancheIsABijection : Prop :=
  (∀ h : Word,
    let a := h ^^^ shr32 h 16
    let b := mul32 a 0x85EBCA6B
    let c := b ^^^ shr32 b 13
    let d := mul32 c 0xC2B2AE35
    avalanche h = d ^^^ shr32 d 16) ∧
  Function.Bijective avalanche ∧
  avalanche 0 = 0 ∧ avalanche 1 = 0x514E28B7 ∧ avalanche 0xFFFFFFFF = 0x81F16F39 ∧
  avalanche 0x80000000 = 0x6D3C65A0 ∧ avalanche 0x504BA9D4 = 0x3C2569B2

/-- R67: Finalize mixes the total length; the sum never carries and is an OR; an empty tail adds nothing. -/
def Obligations.FinalizeMixesTheTotalLength : Prop :=
  (∀ (acc len : Word) (T : List Byte), T.length ≤ 3 →
    finalize acc len T = avalanche ((acc ^^^ scramble (padword T)) ^^^ add32 len (BitVec.ofNat 32 T.length))) ∧
  (∀ (len : Word) (T : List Byte), len.toNat % 4 = 0 → T.length ≤ 3 →
    (add32 len (BitVec.ofNat 32 T.length)).toNat = len.toNat + T.length ∧
    add32 len (BitVec.ofNat 32 T.length) = len ||| BitVec.ofNat 32 T.length) ∧
  (∀ acc len : Word, finalize acc len [] = avalanche (acc ^^^ len)) ∧
  finalize 0 0 [] = 0 ∧ finalize 0 0 [0x00] = 0x514E28B7 ∧ finalize 0 0 [0x61] = 0x3C2569B2 ∧
  finalize 0x86A7049E 4 [] = 0x43ED676A

/-- R68: for every byte sequence the digest is a bijection of the seed. For 2^32 bytes or more, where R87 gives no digest
(U1), the statement is about the value the model's function has there (log 16), not about the hardware. -/
def Obligations.DigestIsABijectionOfTheSeed : Prop :=
  ∀ B : List Byte, Function.Bijective fun s => digest s B

/-! ### Control commands and reset -/

/-- R70: INIT. -/
def Obligations.InitLoadsTheSeedAndBeginsFresh : Prop :=
  (∀ w : CmdWord, opOf w = 0b1000 → decode w = .command (.init (w.extractLsb' 0 32))) ∧
  (∀ (s : State) (seed : Word), exec (.init seed) s = .next { s with block :=
    { seed := seed, acc := seed, len := 0, cnt := 0, tail := [], ovf := false, ill := s.block.ill } }) ∧
  (∀ s : State, exec (.init s.block.seed) s = exec .start s) ∧
  (∀ (s : State) (x y : Word), execAll [.init x, .init y] s = exec (.init y) s) ∧
  (∀ (s : State) (seed : Word), ∃ t, execAll [.init seed, .fin] s = .next t ∧
    t.rspQueue = s.rspQueue ++ [(avalanche seed).setWidth 64])

/-- R71: START. -/
def Obligations.StartBeginsFreshWithTheStoredSeed : Prop :=
  (∀ w : CmdWord, opOf w = 0b1001 → decode w = .command .start) ∧
  (∀ s : State, exec .start s = .next { s with block :=
    { seed := s.block.seed, acc := s.block.seed, len := 0, cnt := 0, tail := [], ovf := false, ill := s.block.ill } }) ∧
  exec .start State.reset = .next State.reset ∧
  (∀ (s : State) (b : Byte) (seed : Word), ∃ t,
    execAll [.init seed, .wr1 b, .fin, .start, .wr1 b, .fin] s = .next t ∧
      ∃ v, t.rspQueue = s.rspQueue ++ [v, v])

/-- R72: the state after INIT depends on the seed alone (but for ILL); `HASH s, B` and, after it, `REHASH B` respond
with one and the same value from every earlier state. -/
def Obligations.HashDependsOnSeedAndBytesAlone : Prop :=
  (∀ (seed : Word) (s s' : State), ∃ t t', exec (.init seed) s = .next t ∧ exec (.init seed) s' = .next t' ∧
    { t.block with ill := false } = { t'.block with ill := false }) ∧
  (∀ (s : State) (seed : Word) (B : List Byte), B.length < 2 ^ 32 →
    ∃ t, execAll (hashCommands seed B) s = .next t ∧ t.block.seed = seed ∧ t.block.ovf = false ∧
      t.rspQueue = s.rspQueue ++ [(digest seed B).setWidth 64]) ∧
  (∀ (s : State) (B : List Byte), B.length < 2 ^ 32 →
    ∃ t, execAll (rehashCommands B) s = .next t ∧ t.block.seed = s.block.seed ∧ t.block.ovf = false ∧
      t.rspQueue = s.rspQueue ++ [(digest s.block.seed B).setWidth 64])

/-- R23: the state after hardware reset. -/
def Obligations.ResetIsFreshZero : Prop :=
  State.reset.block =
    { seed := 0x00000000, acc := 0x00000000, len := 0x00000000, cnt := 0, tail := [], ovf := false, ill := false } ∧
  State.reset.block.status = 0b0000 ∧ State.reset.block.IsFresh 0 ∧
  exec (.init 0x00000000) State.reset = .next State.reset

/-- R105: hardware reset brings the block to the reset state, drops undelivered responses, performs nothing of a
command it cuts off, and clears ILL. That what the host has got back and the index of the free value go on is the
model's choice (logs 3, 5, 6). -/
def Obligations.HardwareResetRestoresTheBlock : Prop :=
  ∀ (s : State) (cutOff : Option CmdWord) (rest : List HostMove), s.inputs = .assertReset cutOff :: rest →
    step s = .next
      { block :=
          { seed := 0, acc := 0, len := 0, cnt := 0, tail := [], ovf := false, ill := false }
        inputs := rest
        rspQueue := []
        observed := s.observed
        draws := s.draws }

/-- R107: `INIT 0` restores every item but ILL; START restores every item but SEED, ILL and (since ACC gets SEED, R71)
ACC. -/
def Obligations.InitZeroRestoresAllButIll : Prop :=
  ∀ s : State,
    (∃ t, exec (.init 0x00000000) s = .next t ∧ t.block = { State.reset.block with ill := s.block.ill }) ∧
    (∃ t, exec .start s = .next t ∧
      t.block = { State.reset.block with seed := s.block.seed, acc := s.block.seed, ill := s.block.ill })

/-! ### Write commands -/

/-- R76: Absorb, line by line of the rule's pseudocode, is the state change every write command makes. -/
def Obligations.AbsorbFollowsThePseudocode : Prop :=
  (∀ (i : Instr) (s : State), isWrite i = true →
    (carried i).length ≤ 4 ∧ exec i s = .next { s with block := s.block.absorb (carried i) }) ∧
  ∀ (b : Block) (X : List Byte), b.tail.length ≤ 3 → X.length ≤ 4 →
    let S := b.tail ++ X
    b.absorb X =
      if 4 ≤ S.length then
        { b with
          acc := fold b.acc (le32 (S.getD 0 0) (S.getD 1 0) (S.getD 2 0) (S.getD 3 0))
          ovf := if b.len = 0xFFFFFFFC then true else b.ovf
          len := add32 b.len 4
          tail := S.drop 4
          cnt := BitVec.ofNat 2 (S.length - 4) }
      else { b with tail := S, cnt := BitVec.ofNat 2 S.length }

/-- R75: WR0 changes nothing, wherever it stands. (Results are compared where no FIN under OVF drew a free value, R86.) -/
def Obligations.Wr0ChangesNothing : Prop :=
  (∀ w : CmdWord, opOf w = 0b0000 → decode w = .command .wr0) ∧
  (∀ s : State, blockOk s.block = true → exec .wr0 s = .next s) ∧
  (∀ (s : State) (is : List Instr), blockOk s.block = true → ∃ t u, execAll is s = .next t ∧
    execAll (.wr0 :: is) s = .next u ∧ u.block = t.block ∧ (t.draws = s.draws → u = t))

/-- R77: WR1, by the value of CNT before it. -/
def Obligations.Wr1ByTailCount : Prop :=
  (∀ w : CmdWord, opOf w = 0b0001 → decode w = .command (.wr1 (w.extractLsb' 0 8))) ∧
  (∀ (s : State) (b0 : Byte),
    (s.block.tail = [] → exec (.wr1 b0) s = .next { s with block := { s.block with tail := [b0], cnt := 1 } }) ∧
    (∀ t0, s.block.tail = [t0] →
      exec (.wr1 b0) s = .next { s with block := { s.block with tail := [t0, b0], cnt := 2 } }) ∧
    (∀ t0 t1, s.block.tail = [t0, t1] →
      exec (.wr1 b0) s = .next { s with block := { s.block with tail := [t0, t1, b0], cnt := 3 } }) ∧
    (∀ t0 t1 t2, s.block.tail = [t0, t1, t2] →
      exec (.wr1 b0) s = .next { s with block := { s.block with
        acc := fold s.block.acc (le32 t0 t1 t2 b0), len := add32 s.block.len 4, tail := [], cnt := 0
        ovf := if s.block.len = 0xFFFFFFFC then true else s.block.ovf } })) ∧
  fold 0 (le32 0x11 0x22 0x33 0xAA) = 0x3A6A08E2

/-- R78: WR2, by the value of CNT before it. -/
def Obligations.Wr2ByTailCount : Prop :=
  (∀ w : CmdWord, opOf w = 0b0010 → decode w = .command (.wr2 (w.extractLsb' 0 8) (w.extractLsb' 8 8))) ∧
  (∀ (s : State) (b0 b1 : Byte),
    (s.block.tail = [] → exec (.wr2 b0 b1) s = .next { s with block := { s.block with tail := [b0, b1], cnt := 2 } }) ∧
    (∀ t0, s.block.tail = [t0] →
      exec (.wr2 b0 b1) s = .next { s with block := { s.block with tail := [t0, b0, b1], cnt := 3 } }) ∧
    (∀ t0 t1, s.block.tail = [t0, t1] →
      exec (.wr2 b0 b1) s = .next { s with block := { s.block with
        acc := fold s.block.acc (le32 t0 t1 b0 b1), len := add32 s.block.len 4, tail := [], cnt := 0
        ovf := if s.block.len = 0xFFFFFFFC then true else s.block.ovf } }) ∧
    (∀ t0 t1 t2, s.block.tail = [t0, t1, t2] →
      exec (.wr2 b0 b1) s = .next { s with block := { s.block with
        acc := fold s.block.acc (le32 t0 t1 t2 b0), len := add32 s.block.len 4, tail := [b1], cnt := 1
        ovf := if s.block.len = 0xFFFFFFFC then true else s.block.ovf } })) ∧
  fold 0 (le32 0x11 0x22 0xAA 0xBB) = 0x0C84237B ∧ fold 0 (le32 0x11 0x22 0x33 0xAA) = 0x3A6A08E2

/-- R79: WR3, by the value of CNT before it. -/
def Obligations.Wr3ByTailCount : Prop :=
  (∀ w : CmdWord, opOf w = 0b0011 →
    decode w = .command (.wr3 (w.extractLsb' 0 8) (w.extractLsb' 8 8) (w.extractLsb' 16 8))) ∧
  (∀ (s : State) (b0 b1 b2 : Byte),
    (s.block.tail = [] →
      exec (.wr3 b0 b1 b2) s = .next { s with block := { s.block with tail := [b0, b1, b2], cnt := 3 } }) ∧
    (∀ t0, s.block.tail = [t0] →
      exec (.wr3 b0 b1 b2) s = .next { s with block := { s.block with
        acc := fold s.block.acc (le32 t0 b0 b1 b2), len := add32 s.block.len 4, tail := [], cnt := 0
        ovf := if s.block.len = 0xFFFFFFFC then true else s.block.ovf } }) ∧
    (∀ t0 t1, s.block.tail = [t0, t1] →
      exec (.wr3 b0 b1 b2) s = .next { s with block := { s.block with
        acc := fold s.block.acc (le32 t0 t1 b0 b1), len := add32 s.block.len 4, tail := [b2], cnt := 1
        ovf := if s.block.len = 0xFFFFFFFC then true else s.block.ovf } }) ∧
    (∀ t0 t1 t2, s.block.tail = [t0, t1, t2] →
      exec (.wr3 b0 b1 b2) s = .next { s with block := { s.block with
        acc := fold s.block.acc (le32 t0 t1 t2 b0), len := add32 s.block.len 4, tail := [b1, b2], cnt := 2
        ovf := if s.block.len = 0xFFFFFFFC then true else s.block.ovf } })) ∧
  fold 0 (le32 0x11 0xAA 0xBB 0xCC) = 0xD5E4B130

/-- R80: WR4, by the value of CNT before it: it always folds exactly one word. -/
def Obligations.Wr4ByTailCount : Prop :=
  (∀ w : CmdWord, opOf w = 0b0100 → decode w = .command
    (.wr4 (w.extractLsb' 0 8) (w.extractLsb' 8 8) (w.extractLsb' 16 8) (w.extractLsb' 24 8))) ∧
  (∀ (s : State) (b0 b1 b2 b3 : Byte),
    (s.block.tail = [] →
      exec (.wr4 b0 b1 b2 b3) s = .next { s with block := { s.block with
        acc := fold s.block.acc (le32 b0 b1 b2 b3), len := add32 s.block.len 4, tail := [], cnt := 0
        ovf := if s.block.len = 0xFFFFFFFC then true else s.block.ovf } }) ∧
    (∀ t0, s.block.tail = [t0] →
      exec (.wr4 b0 b1 b2 b3) s = .next { s with block := { s.block with
        acc := fold s.block.acc (le32 t0 b0 b1 b2), len := add32 s.block.len 4, tail := [b3], cnt := 1
        ovf := if s.block.len = 0xFFFFFFFC then true else s.block.ovf } }) ∧
    (∀ t0 t1, s.block.tail = [t0, t1] →
      exec (.wr4 b0 b1 b2 b3) s = .next { s with block := { s.block with
        acc := fold s.block.acc (le32 t0 t1 b0 b1), len := add32 s.block.len 4, tail := [b2, b3], cnt := 2
        ovf := if s.block.len = 0xFFFFFFFC then true else s.block.ovf } }) ∧
    (∀ t0 t1 t2, s.block.tail = [t0, t1, t2] →
      exec (.wr4 b0 b1 b2 b3) s = .next { s with block := { s.block with
        acc := fold s.block.acc (le32 t0 t1 t2 b0), len := add32 s.block.len 4, tail := [b1, b2, b3], cnt := 3
        ovf := if s.block.len = 0xFFFFFFFC then true else s.block.ovf } })) ∧
  fold 0 (le32 0xAA 0xBB 0xCC 0xDD) = 0x979A02C2 ∧ fold 0 (le32 0x11 0x22 0x33 0xAA) = 0x3A6A08E2

/-- R34: WRn carries lanes 0 to n-1, lane 0 first; lane 0 is the least significant byte; a WR4 at CNT = 0 folds its data field unchanged; the same
bytes in narrower writes leave the same state. -/
def Obligations.LaneOrderIsStreamOrder : Prop :=
  (∀ (w : CmdWord) (i : Instr), decode w = .command i → isWrite i = true →
    carried i = (List.range (opOf w).toNat).map fun k => w.extractLsb' (8 * k) 8) ∧
  (∀ d : Word, le32 (d.extractLsb' 0 8) (d.extractLsb' 8 8) (d.extractLsb' 16 8) (d.extractLsb' 24 8) = d) ∧
  (∀ (s : State) (w : CmdWord), opOf w = 0b0100 → s.block.tail = [] →
    ∃ t, acceptCommand w s = .next t ∧ t.block.acc = fold s.block.acc (w.extractLsb' 0 32) ∧ t.block.tail = []) ∧
  (∀ (s : State) (a b c d : Byte), blockOk s.block = true → ∃ t,
    execAll [.wr4 a b c d] s = .next t ∧
    execAll [.wr1 a, .wr1 b, .wr1 c, .wr1 d] s = .next t ∧
    execAll [.wr2 a b, .wr2 c d] s = .next t)

/-- R13, R20: the position LEN + CNT in the stream advances by the number of bytes a write carries. -/
def Obligations.PositionAdvancesByBytesWritten : Prop :=
  ∀ (i : Instr) (s : State), isWrite i = true → blockOk s.block = true → ∃ t, exec i s = .next t ∧
    add32 t.block.len (t.block.cnt.setWidth 32) =
      add32 (add32 s.block.len (s.block.cnt.setWidth 32)) (BitVec.ofNat 32 (carried i).length)

/-- R32: the words of a stream are the little-endian words at its multiples of four, the partial word its last bytes. -/
def Obligations.WordsOfTheStreamByOffset : Prop :=
  ∀ B : List Byte,
    (wholeWords B).length = B.length / 4 ∧
    (∀ j, j < B.length / 4 → (wholeWords B)[j]? =
      some (le32 (B.getD (4 * j) 0) (B.getD (4 * j + 1) 0) (B.getD (4 * j + 2) 0) (B.getD (4 * j + 3) 0))) ∧
    partialWord B = B.drop (4 * (B.length / 4)) ∧ (partialWord B).length = B.length % 4

/-- R81, the stream invariant: from `Fresh(s)`, after any writes with any WR0 and FIN among them that carry fewer than
2^32 bytes, the state is the rule's. "No reserved command, ILL = 0" is the premise R52 asks of every claim about a
command sequence. -/
def Obligations.StateIsAFunctionOfTheStream : Prop :=
  ∀ (s : State) (seed : Word) (is : List Instr), s.block.IsFresh seed → s.block.ill = false →
    (∀ i ∈ is, continuesStream i = true) → (is.flatMap carried).length < 2 ^ 32 →
    ∃ t, execAll is s = .next t ∧
      t.block.acc = (wholeWords (is.flatMap carried)).foldl fold seed ∧
      t.block.len = BitVec.ofNat 32 (4 * ((is.flatMap carried).length / 4)) ∧
      t.block.tail = (is.flatMap carried).drop (4 * ((is.flatMap carried).length / 4)) ∧
      t.block.cnt = BitVec.ofNat 2 ((is.flatMap carried).length % 4) ∧
      t.block.ovf = false ∧ t.block.seed = seed

/-- R92: however long the stream, ACC, TAIL, CNT and LEN stay defined, and OVF says exactly whether it has reached
2^32 bytes; INIT and START end the condition. -/
def Obligations.OverlongStreamStaysDefined : Prop :=
  (∀ (s : State) (seed : Word) (is : List Instr), s.block.IsFresh seed → s.block.ill = false →
    (∀ i ∈ is, continuesStream i = true) →
    ∃ t, execAll is s = .next t ∧
      t.block.acc = (wholeWords (is.flatMap carried)).foldl fold seed ∧
      t.block.len.toNat = 4 * ((is.flatMap carried).length / 4) % 2 ^ 32 ∧
      t.block.tail = (is.flatMap carried).drop (4 * ((is.flatMap carried).length / 4)) ∧
      t.block.cnt.toNat = (is.flatMap carried).length % 4 ∧
      (t.block.ovf = true ↔ 2 ^ 32 ≤ (is.flatMap carried).length)) ∧
  (∀ (s : State) (seed : Word), ∃ t u, exec (.init seed) s = .next t ∧ t.block.ovf = false ∧
    exec .start s = .next u ∧ u.block.ovf = false)

/-- R82, chunking invariance: two cuttings of one byte sequence into writes leave the same state, and a following FIN
responds with the same value; of the value, OVF = 0 is the premise R86 asks. -/
def Obligations.ChunkingDoesNotMatter : Prop :=
  ∀ (s : State) (is js : List Instr), blockOk s.block = true → s.block.ill = false →
    (∀ i ∈ is, isWrite i = true) → (∀ j ∈ js, isWrite j = true) → is.flatMap carried = js.flatMap carried →
    ∃ t, execAll is s = .next t ∧ execAll js s = .next t ∧
      (t.block.ovf = false → ∃ u, execAll (is ++ [.fin]) s = .next u ∧ execAll (js ++ [.fin]) s = .next u)

/-- R83: the source's write of a slice of any length is the left fold of Absorb over any cutting of it into beats. -/
def Obligations.WriteSliceIsAnyCuttingIntoBeats : Prop :=
  ∀ (b : Block) (cuts : List (List Byte)), blockOk b = true → (∀ X ∈ cuts, beatWellFormed X = true) →
    b.writeSlice cuts.flatten = cuts.foldl Block.absorb b

/-- R55: `WRITE X` carries the bytes of X in the fewest write commands and leaves the state of the source's
`write(X)`. -/
def Obligations.WriteExpansionWritesTheSlice : Prop :=
  ∀ (s : State) (X : List Byte), blockOk s.block = true →
    execAll (writeCommands X) s = .next { s with block := s.block.writeSlice X } ∧
    (writeCommands X).flatMap carried = X ∧ (∀ i ∈ writeCommands X, isWrite i = true) ∧
    (X ≠ [] → (writeCommands X).length = (X.length + 3) / 4) ∧ writeCommands [] = [.wr0] ∧
    (∀ is : List Instr, (∀ i ∈ is, isWrite i = true) → is.flatMap carried = X →
      X ≠ [] → (writeCommands X).length ≤ is.length)

/-- R114: two command sequences with the same bytes between the same INIT, START and FIN, however the bytes are cut
and whatever WR0 stand among them, end with the same block and as many responses, and with the same state and responses
unless a FIN under OVF drew a free value (R86). Each write is compared through the one-byte writes of its bytes. -/
def Obligations.SequencesWithTheSameStreamsAgree : Prop :=
  ∀ (s : State) (is js : List Instr), blockOk s.block = true → s.block.ill = false →
    is.flatMap (fun i => if isWrite i then (carried i).map Instr.wr1 else [i]) =
      js.flatMap (fun i => if isWrite i then (carried i).map Instr.wr1 else [i]) →
    ∃ t u, execAll is s = .next t ∧ execAll js s = .next u ∧ t.block = u.block ∧
      t.rspQueue.length = u.rspQueue.length ∧ (t.draws = s.draws → t = u)

/-! ### FIN -/

/-- R85: FIN responds once, with the zero-extended digest while OVF = 0 and with some value while OVF = 1, and writes
no register. That a FIN under OVF advances the counter of draws is the model's choice (log 3). -/
def Obligations.FinRespondsWithTheDigest : Prop :=
  (∀ w : CmdWord, opOf w = 0b1010 → decode w = .command .fin) ∧
  (∀ s : State, s.block.ovf = false → ∃ v : Response,
    exec .fin s = .next { s with rspQueue := s.rspQueue ++ [v] } ∧
      v.extractLsb' 0 32 = finalize s.block.acc s.block.len s.block.tail ∧ v.extractLsb' 32 32 = 0) ∧
  (∀ s : State, s.block.ovf = true → ∃ v, exec .fin s = .next
    { s with rspQueue := s.rspQueue ++ [v], draws := s.draws + 1 }) ∧
  (∀ s : State, s.block.IsFresh s.block.seed → exec .fin s = .next
    { s with rspQueue := s.rspQueue ++ [(avalanche s.block.seed).setWidth 64] })

/-- R86 (the free value: log 3): while OVF = 1 a FIN gives exactly one response, the next draw of the unconstrained
`Config.freeResponse`, and changes no state of the block. The statement holds whatever that value is. -/
def Obligations.FinUnderOverflowDrawsAFreeValue : Prop :=
  ∀ s : State, s.block.ovf = true → ∃ t, exec .fin s = .next t ∧ t.block = s.block ∧
    t.rspQueue = s.rspQueue ++ [Config.freeResponse s.draws] ∧ t.draws = s.draws + 1 ∧
    t.observed = s.observed ∧ t.inputs = s.inputs

/-- R87: a FIN at any moment responds with the digest of the stream written since the last INIT, START or reset;
`HASH s, B` responds `zext_64(Digest(s, B))`; the source's two vectors. The formula is the rule's for fewer than 2^32
bytes; for more, where R87 gives no digest (U1), that clause is about the value the model's function has there (log 16),
not about the hardware. -/
def Obligations.FinRespondsWithTheDigestOfTheStream : Prop :=
  (∀ (s : State) (seed : Word) (is : List Instr), s.block.IsFresh seed → s.block.ill = false →
    (∀ i ∈ is, continuesStream i = true) → (is.flatMap carried).length < 2 ^ 32 →
    ∃ t u, execAll is s = .next t ∧ execAll (is ++ [.fin]) s = .next u ∧
      u = { t with rspQueue := t.rspQueue ++ [(digest seed (is.flatMap carried)).setWidth 64] }) ∧
  (∀ (s : State) (seed : Word) (B : List Byte), s.block.ill = false → B.length < 2 ^ 32 →
    ∃ t, execAll (hashCommands seed B) s = .next t ∧
      t.rspQueue = s.rspQueue ++ [(digest seed B).setWidth 64]) ∧
  (∀ (s : Word) (B : List Byte), digest s B = avalanche (((wholeWords B).foldl fold s ^^^
    scramble (padword (B.drop (4 * (B.length / 4))))) ^^^ BitVec.ofNat 32 B.length)) ∧
  digest 0 [] = 0 ∧ digest 0 [0x61] = 0x3C2569B2

/-- R88: FIN is repeatable, with any number of WR0 between, and writing may go on after it: a FIN in front of a command
sequence adds its own response and changes nothing else the sequence does. OVF = 0 is the rule's own premise, at the first
FIN and at every later one (no free value of R86 is drawn). -/
def Obligations.FinIsRepeatableAndHarmless : Prop :=
  (∀ (s : State) (n : Nat), blockOk s.block = true → s.block.ovf = false → s.block.ill = false →
    ∃ v, execAll (.fin :: (List.replicate n .wr0 ++ [.fin])) s =
      .next { s with rspQueue := s.rspQueue ++ [v, v] }) ∧
  (∀ (s : State) (is : List Instr), s.block.ovf = false → s.block.ill = false →
    ∃ t u v later, execAll is s = .next t ∧ t.rspQueue = s.rspQueue ++ later ∧
      execAll (.fin :: is) s = .next u ∧ u.block = t.block ∧
      (t.draws = s.draws → u = { t with rspQueue := s.rspQueue ++ v :: later }))

/-! ### The whole machine -/

/-- R17: STATUS is a view of CNT, OVF and ILL, 0 at reset; reading it observes it and changes nothing of the block; and
the host learns nothing else of the block but by a FIN: two blocks with the same STATUS give it the same, whatever it
does short of one. That the host's moves are a list and what it got back a record in State is the model's choice (logs 1
and 6). -/
def Obligations.StatusShowsCntOvfIll : Prop :=
  (∀ b : Block, b.status.extractLsb' 0 2 = b.cnt ∧ b.status.getLsbD 2 = b.ovf ∧ b.status.getLsbD 3 = b.ill) ∧
  State.reset.block.status = 0b0000 ∧
  (∀ (s : State) (rest : List HostMove), s.inputs = .readStatus :: rest →
    step s = .next { s with inputs := rest, observed := s.observed ++ [.status s.block.status] }) ∧
  (∀ (s : State) (b : Block), b.status = s.block.status →
    (∀ w rest, s.inputs = .present w :: rest → opOf w ≠ 0b1010) →
    (hardwareStep { s with block := b }).observed = (hardwareStep s).observed ∧
    (hardwareStep { s with block := b }).rspQueue = (hardwareStep s).rspQueue)

/-- R19, the whole access table: what each command, a reserved word and reset write, and what each command reads. -/
def Obligations.AccessTable : Prop :=
  (∀ (i : Instr) (s : State), ∃ t, exec i s = .next t ∧
    t.block.ill = s.block.ill ∧ t.inputs = s.inputs ∧ t.observed = s.observed ∧
    ((∀ x, i ≠ .init x) → t.block.seed = s.block.seed) ∧
    (i ≠ .fin → t.rspQueue = s.rspQueue ∧ t.draws = s.draws) ∧
    (i = .fin → t.block = s.block ∧ ∃ v, t.rspQueue = s.rspQueue ++ [v]) ∧
    (isWrite i = true → s.block.tail.length + (carried i).length < 4 →
      t.block.acc = s.block.acc ∧ t.block.len = s.block.len ∧ t.block.ovf = s.block.ovf) ∧
    (isWrite i = true → s.block.ovf = true → t.block.ovf = true) ∧
    (i = .wr0 → blockOk s.block = true → t = s)) ∧
  (∀ (s : State) (w : CmdWord) (rest : List HostMove), s.inputs = .present w :: rest → w.wellFormed = false →
    (hardwareStep s).block = { s.block with ill := true } ∧ (hardwareStep s).rspQueue = s.rspQueue ∧
    (hardwareStep s).observed = s.observed ∧ (hardwareStep s).draws = s.draws) ∧
  (∀ (s : State) (c : Option CmdWord) (rest : List HostMove), s.inputs = .assertReset c :: rest →
    (hardwareStep s).block = State.reset.block ∧ (hardwareStep s).rspQueue = []) ∧
  (∀ (i : Instr) (s u : State), isWrite i = true → s.block.tail = u.block.tail →
    ∃ s' u', exec i s = .next s' ∧ exec i u = .next u' ∧
      s'.block.tail = u'.block.tail ∧ s'.block.cnt = u'.block.cnt ∧
      (s.block.acc = u.block.acc → s'.block.acc = u'.block.acc) ∧
      (s.block.len = u.block.len → s'.block.len = u'.block.len) ∧
      (s.block.len = u.block.len → s.block.ovf = u.block.ovf → s'.block.ovf = u'.block.ovf)) ∧
  (∀ (seed : Word) (s u : State), ∃ s' u', exec (.init seed) s = .next s' ∧ exec (.init seed) u = .next u' ∧
    { s'.block with ill := false } = { u'.block with ill := false }) ∧
  (∀ s u : State, s.block.seed = u.block.seed → ∃ s' u', exec .start s = .next s' ∧ exec .start u = .next u' ∧
    { s'.block with ill := false } = { u'.block with ill := false }) ∧
  (∀ s u : State, s.block.acc = u.block.acc → s.block.len = u.block.len → s.block.tail = u.block.tail →
    s.block.ovf = false → u.block.ovf = false →
    ∃ s' u' v, exec .fin s = .next s' ∧ exec .fin u = .next u' ∧
      s'.rspQueue = s.rspQueue ++ [v] ∧ u'.rspQueue = u.rspQueue ++ [v])

/-- R12: SEED is written only by INIT and reset, and read only by START: a write or a FIN does the same whatever SEED
holds (the free value of R86, which counts a draw, apart). -/
def Obligations.SeedIsWrittenByInitAndReadByStart : Prop :=
  (∀ s : State, (hardwareStep s).block.seed =
    match s.inputs with
    | .present w :: _ => if opOf w = 0b1000 then w.extractLsb' 0 32 else s.block.seed
    | .assertReset _ :: _ => 0
    | _ => s.block.seed) ∧
  (∀ (i : Instr) (s : State) (x : Word), i ≠ .start → (∀ y, i ≠ .init y) → ∃ t u, exec i s = .next t ∧
    exec i { s with block := { s.block with seed := x } } = .next u ∧ u.block = { t.block with seed := x } ∧
    (t.draws = s.draws → u = { t with block := { t.block with seed := x } })) ∧
  (∀ s : State, ∃ t, exec .start s = .next t ∧ t.block.acc = s.block.seed)

/-- R15: OVF after a step of the hardware: set exactly by the write that folds a word while LEN is 0xFFFFFFFC, cleared
by INIT, START and reset, else kept; so it says exactly whether the stream has reached 2^32 bytes. -/
def Obligations.OvfIsSetAtTheWrapAndClearedByAFreshStart : Prop :=
  (∀ s : State, (hardwareStep s).block.ovf =
    match s.inputs with
    | .present w :: _ =>
      match decode w with
      | .command i =>
        if isWrite i then
          s.block.ovf || (decide (4 ≤ s.block.tail.length + (carried i).length) && (s.block.len == 0xFFFFFFFC))
        else if i = .fin then s.block.ovf else false
      | .reserved _ => s.block.ovf
    | .assertReset _ :: _ => false
    | _ => s.block.ovf) ∧
  (∀ (s : State) (seed : Word) (is : List Instr), s.block.IsFresh seed → s.block.ill = false →
    (∀ i ∈ is, continuesStream i = true) →
    ∃ t, execAll is s = .next t ∧ (t.block.ovf = true ↔ 2 ^ 32 ≤ (is.flatMap carried).length))

/-- R11: ACC after a step of the hardware: written by INIT, START, reset and a write that completes a word, else kept, by
FIN too; while OVF = 0 it is the seed folded with the whole words of the stream. -/
def Obligations.AccFoldsTheCompletedWords : Prop :=
  (∀ s : State, (hardwareStep s).block.acc =
    match s.inputs with
    | .present w :: _ =>
      match decode w with
      | .command i =>
        if isWrite i then
          let S := s.block.tail ++ carried i
          if 4 ≤ S.length then fold s.block.acc (le32 (S.getD 0 0) (S.getD 1 0) (S.getD 2 0) (S.getD 3 0)) else s.block.acc
        else if i = .fin then s.block.acc
        else if i = .start then s.block.seed
        else w.extractLsb' 0 32
      | .reserved _ => s.block.acc
    | .assertReset _ :: _ => 0
    | _ => s.block.acc) ∧
  (∀ (b : Block) (B : List Byte), b.Holds B → b.acc = ((wholeWords B).take (b.len.toNat / 4)).foldl fold b.seed ∨ b.ovf = true)

/-- R13: LEN after a step of the hardware: 0 after INIT, START and reset, 4 more after a write that completes a word,
else kept; its two low bits are 0; while OVF = 0, LEN + CNT is the exact number of bytes of the stream. -/
def Obligations.LenAdvancesByFourPerWord : Prop :=
  (∀ s : State, (hardwareStep s).block.len =
    match s.inputs with
    | .present w :: _ =>
      match decode w with
      | .command i =>
        if isWrite i then
          if 4 ≤ s.block.tail.length + (carried i).length then add32 s.block.len 4 else s.block.len
        else if i = .fin then s.block.len else 0
      | .reserved _ => s.block.len
    | .assertReset _ :: _ => 0
    | _ => s.block.len) ∧
  (∀ (b : Block) (B : List Byte), b.Holds B → b.len.extractLsb' 0 2 = 0 ∧
    (b.ovf = false → b.len.toNat + b.cnt.toNat = B.length ∧ B.length < 2 ^ 32))

/-- R14: the remainder buffer after a step of the hardware: first in, first out, at most three bytes; empty after INIT,
START and reset; CNT is the number of its bytes. -/
def Obligations.TailHoldsTheNewestBytes : Prop :=
  ∀ s : State, blockOk s.block = true →
    (hardwareStep s).block.tail =
      (match s.inputs with
      | .present w :: _ =>
        match decode w with
        | .command i =>
          if isWrite i then
            let S := s.block.tail ++ carried i
            S.drop (4 * (S.length / 4))
          else if i = .fin then s.block.tail else []
        | .reserved _ => s.block.tail
      | .assertReset _ :: _ => []
      | _ => s.block.tail) ∧
    (hardwareStep s).block.cnt.toNat = (hardwareStep s).block.tail.length ∧ (hardwareStep s).block.tail.length ≤ 3

/-- R45, R114, R115: a response is added only by a FIN, at the end of the queue; taken only by the host, from its front;
and never altered in between. -/
def Obligations.ResponsesAreDeliveredInFinOrder : Prop :=
  ∀ s t : State, step s = .next t →
    match s.inputs with
    | .present w :: _ =>
      t.observed = s.observed ∧
        if opOf w = 0b1010 then ∃ v, t.rspQueue = s.rspQueue ++ [v] else t.rspQueue = s.rspQueue
    | .takeResponse :: _ =>
      (∀ v vs, s.rspQueue = v :: vs → t.rspQueue = vs ∧ t.observed = s.observed ++ [.response v]) ∧
        (s.rspQueue = [] → t.rspQueue = [] ∧ t.observed = s.observed)
    | .assertReset _ :: _ => t.rspQueue = [] ∧ t.observed = s.observed
    | .readStatus :: _ => t.rspQueue = s.rspQueue ∧ t.observed = s.observed ++ [.status s.block.status]
    | [] => t.rspQueue = s.rspQueue ∧ t.observed = s.observed

/-- R38 (c), R115: nothing but a command or reset changes the block. -/
def Obligations.OnlyCommandsAndResetChangeTheBlock : Prop :=
  ∀ s : State, (∀ w rest, s.inputs ≠ .present w :: rest) → (∀ c rest, s.inputs ≠ .assertReset c :: rest) →
    ∃ t, step s = .next t ∧ t.block = s.block ∧ t.draws = s.draws ∧ t.inputs = s.inputs.tail

/-- R18 (a) to (c), and (d) for the empty stream, hold at reset. -/
def Obligations.ResetMeetsTheInvariants : Prop :=
  blockOk State.reset.block = true ∧ State.reset.block.Holds [] ∧ hostOk State.reset = true

/-- R18 (a) to (c): CNT is the number of pending bytes, at most 3, and LEN is a multiple of 4, after every step, even
past a reserved command. -/
def Obligations.EveryStepKeepsTheBlockInvariant : Prop :=
  ∀ s : State, blockOk s.block = true → blockOk (hardwareStep s).block = true

/-- R18 (d), R31: if the block holds the stream B (R81, R92), then after any step it holds the stream the rule R31
names: B with the command's bytes after a write, the empty stream after INIT, START or reset, else B. -/
def Obligations.EveryStepKeepsTheStreamInvariant : Prop :=
  ∀ (s t : State) (B : List Byte), s.block.Holds B → step s = .next t →
    t.block.Holds
      (match s.inputs with
      | .present w :: _ =>
        match decode w with
        | .command i => if continuesStream i then B ++ carried i else []
        | .reserved _ => B
      | .assertReset _ :: _ => []
      | _ => B)

/-- R18 follows from R81: a block that holds a stream meets (a) to (c). -/
def Obligations.HoldingAStreamImpliesTheBlockInvariant : Prop :=
  ∀ (b : Block) (B : List Byte), b.Holds B → blockOk b = true
end

