-- ==== Sys2Proof/Laws/Decode.lean ====
section
/-! SUPPORT. The fields of an assembled command word. -/

namespace Sys2Proof

@[simp] theorem opOf_commandWord (op : Opcode) (d : Word) : opOf (commandWord op d) = op := by
  apply BitVec.eq_of_getLsbD_eq
  intro i hi
  have : 32 + i < 36 := by omega
  simp [opOf, commandWord, hi, this]

@[simp] theorem dataOf_commandWord (op : Opcode) (d : Word) : dataOf (commandWord op d) = d := by
  apply BitVec.eq_of_getLsbD_eq
  intro i hi
  have : i < 36 := by omega
  simp [dataOf, commandWord, hi, this]

/-- A word is its opcode followed by its data field. -/
theorem commandWord_opOf_dataOf (w : CmdWord) : commandWord (opOf w) (dataOf w) = w := by
  apply BitVec.eq_of_getLsbD_eq
  intro i hi
  by_cases h : i < 32
  · simp [opOf, dataOf, commandWord, hi, h]
  · have h4 : i - 32 < 4 := by omega
    have h32 : 32 + (i - 32) = i := by omega
    simp [opOf, dataOf, commandWord, hi, h, h4, h32]

section Lanes
variable (a b c d : Byte)

@[simp] theorem lane_zero_lanes : lane 0 (lanes a b c d) = a := by
  apply BitVec.eq_of_getLsbD_eq
  intro i hi
  have : i < 32 ∧ i < 24 ∧ i < 16 := by omega
  simp [lane, lanes, hi, this]

@[simp] theorem lane_one_lanes : lane 1 (lanes a b c d) = b := by
  apply BitVec.eq_of_getLsbD_eq
  intro i hi
  have : 8 + i < 32 ∧ 8 + i < 24 ∧ 8 + i < 16 := by omega
  simp [lane, lanes, hi, this]

@[simp] theorem lane_two_lanes : lane 2 (lanes a b c d) = c := by
  apply BitVec.eq_of_getLsbD_eq
  intro i hi
  have : 16 + i < 32 ∧ 16 + i < 24 ∧ ¬ 16 + i < 8 ∧ 8 ≤ 16 + i - 8 ∧ 16 + i - 16 = i ∧ 8 ≤ 16 + i := by omega
  simp [lane, lanes, hi, this]

@[simp] theorem lane_three_lanes : lane 3 (lanes a b c d) = d := by
  apply BitVec.eq_of_getLsbD_eq
  intro i hi
  have : 24 + i < 32 ∧ ¬ 24 + i < 16 ∧ ¬ 24 + i < 8 ∧ 8 ≤ 24 + i - 8 ∧ 8 ≤ 24 + i - 16 ∧ 8 ≤ 24 + i := by omega
  simp [lane, lanes, hi, this]

end Lanes

/-- The four lanes of a data field, put together again, are the field (R34). -/
theorem lanes_lane (d : Word) : lanes (lane 0 d) (lane 1 d) (lane 2 d) (lane 3 d) = d := by
  apply BitVec.eq_of_getLsbD_eq
  intro i hi
  simp only [lanes, lane, BitVec.getLsbD_or, BitVec.getLsbD_shiftLeft, BitVec.getLsbD_setWidth,
    BitVec.getLsbD_extractLsb']
  rcases (by omega : i < 8 ∨ (8 ≤ i ∧ i < 16) ∨ (16 ≤ i ∧ i < 24) ∨ 24 ≤ i) with h | h | h | h
  · have : i < 24 ∧ i < 16 := by omega
    simp [hi, h, this]
  · have : i < 24 ∧ ¬ i < 8 ∧ i - 8 < 8 ∧ i - 8 < 32 ∧ 8 + (i - 8) = i := by omega
    simp [hi, h, this]
  · have : ¬ i < 8 ∧ ¬ i < 16 ∧ ¬ i - 8 < 8 ∧ i - 16 < 8 ∧ i - 16 < 32 ∧ 16 + (i - 16) = i := by omega
    simp [hi, h, this]
  · have : ¬ i < 8 ∧ ¬ i < 16 ∧ ¬ i < 24 ∧ ¬ i - 8 < 8 ∧ ¬ i - 16 < 8 ∧ i - 24 < 8 ∧ i - 24 < 32 ∧ 24 + (i - 24) = i := by
      omega
    simp [hi, this]

end Sys2Proof
end

