-- ==== Sys2Proof/Laws/Mix.lean ====
section
/-! SUPPORT. The arithmetic of spec/40_primitives.md as operations of BitVec, and the small facts about it. -/

namespace Sys2Proof.Machine

theorem mul32_eq_mul (a b : Word) : mul32 a b = a * b := by
  apply BitVec.eq_of_toNat_eq; simp [mul32]

theorem add32_eq_add (a b : Word) : add32 a b = a + b := by
  apply BitVec.eq_of_toNat_eq; simp [add32]

/-- Multiplying by a constant and then by its inverse gives the operand back. -/
theorem mul32_mul32_cancel (a c d : Word) (h : c * d = 1) : mul32 (mul32 a c) d = a := by
  rw [mul32_eq_mul, mul32_eq_mul, BitVec.mul_assoc, h]; exact BitVec.mul_one a

/-- A rotation is the library's rotation. -/
theorem rotl32_eq_rotateLeft (x : Word) (r : Nat) (h : r < 32) : rotl32 x r = x.rotateLeft r := by
  simp [rotl32, BitVec.rotateLeft, BitVec.rotateLeftAux, Nat.mod_eq_of_lt h]

/-- Where each bit of a rotated word comes from. -/
theorem getLsbD_rotl32 (x : Word) (r i : Nat) (hr : r < 32) (hi : i < 32) :
    (rotl32 x r).getLsbD i = if i < r then x.getLsbD (32 - r + i) else x.getLsbD (i - r) := by
  by_cases h : i < r
  · simp [rotl32, h, hi]
  · have : 32 ≤ 32 - r + i := by omega
    simp [rotl32, h, hi, BitVec.getLsbD_of_ge x _ this, BitVec.getLsbD_eq_getElem (show i - r < 32 by omega)]

/-- Rotations by `r` and by `32 - r` undo each other. -/
theorem rotl32_rotl32_cancel (x : Word) (r q : Nat) (hr : 0 < r) (hq : 0 < q) (h : r + q = 32) :
    rotl32 (rotl32 x r) q = x := by
  apply BitVec.eq_of_getLsbD_eq
  intro i hi
  rw [getLsbD_rotl32 _ q i (by omega) hi]
  split
  · rw [getLsbD_rotl32 _ r _ (by omega) (by omega)]
    have : ¬ (32 - q + i < r) := by omega
    rw [if_neg this]
    congr 1
    omega
  · rw [getLsbD_rotl32 _ r _ (by omega) (by omega), if_pos (by omega)]
    congr 1
    omega

/-- The bits of a shift-and-XOR step. -/
theorem getLsbD_xorShift (x : Word) (s i : Nat) :
    (xorShift x s).getLsbD i = (x.getLsbD i ^^ x.getLsbD (s + i)) := by
  simp [xorShift, shr32]

/-- Scrambling the padded empty tail adds nothing (R64, R67). -/
@[simp] theorem scramble_padword_nil : scramble (padword []) = 0 := by decide

end Sys2Proof.Machine
end

