-- ==== Sys2Proof/Laws/State.lean ====
section
/-! SUPPORT. One lemma per field per update of State and of Block, so that no proof unfolds a record update. -/

namespace Sys2Proof.Machine

section StateUpdates
variable (s : State) (b : Block) (l : List HostMove) (v : Response) (o : Observation)

@[simp] theorem State.setBlock_block : (s.setBlock b).block = b := rfl
@[simp] theorem State.setBlock_inputs : (s.setBlock b).inputs = s.inputs := rfl
@[simp] theorem State.setBlock_rspQueue : (s.setBlock b).rspQueue = s.rspQueue := rfl
@[simp] theorem State.setBlock_observed : (s.setBlock b).observed = s.observed := rfl
@[simp] theorem State.setBlock_draws : (s.setBlock b).draws = s.draws := rfl

@[simp] theorem State.setInputs_block : (s.setInputs l).block = s.block := rfl
@[simp] theorem State.setInputs_inputs : (s.setInputs l).inputs = l := rfl
@[simp] theorem State.setInputs_rspQueue : (s.setInputs l).rspQueue = s.rspQueue := rfl
@[simp] theorem State.setInputs_observed : (s.setInputs l).observed = s.observed := rfl
@[simp] theorem State.setInputs_draws : (s.setInputs l).draws = s.draws := rfl

@[simp] theorem State.respond_block : (s.respond v).block = s.block := rfl
@[simp] theorem State.respond_inputs : (s.respond v).inputs = s.inputs := rfl
@[simp] theorem State.respond_rspQueue : (s.respond v).rspQueue = s.rspQueue ++ [v] := rfl
@[simp] theorem State.respond_observed : (s.respond v).observed = s.observed := rfl
@[simp] theorem State.respond_draws : (s.respond v).draws = s.draws := rfl

@[simp] theorem State.countDraw_block : s.countDraw.block = s.block := rfl
@[simp] theorem State.countDraw_inputs : s.countDraw.inputs = s.inputs := rfl
@[simp] theorem State.countDraw_rspQueue : s.countDraw.rspQueue = s.rspQueue := rfl
@[simp] theorem State.countDraw_observed : s.countDraw.observed = s.observed := rfl
@[simp] theorem State.countDraw_draws : s.countDraw.draws = s.draws + 1 := rfl

@[simp] theorem State.observe_block : (s.observe o).block = s.block := rfl
@[simp] theorem State.observe_inputs : (s.observe o).inputs = s.inputs := rfl
@[simp] theorem State.observe_rspQueue : (s.observe o).rspQueue = s.rspQueue := rfl
@[simp] theorem State.observe_observed : (s.observe o).observed = s.observed ++ [o] := rfl
@[simp] theorem State.observe_draws : (s.observe o).draws = s.draws := rfl

/-- Putting back the block and the inputs a state has changes nothing. -/
@[simp] theorem State.setBlock_self : s.setBlock s.block = s := rfl
@[simp] theorem State.setInputs_self : s.setInputs s.inputs = s := rfl
@[simp] theorem State.setBlock_setBlock (c : Block) : (s.setBlock b).setBlock c = s.setBlock c := rfl

end StateUpdates

section BlockUpdates
variable (b : Block) (k : Word) (S : List Byte)

@[simp] theorem Block.setTail_seed : (b.setTail S).seed = b.seed := rfl
@[simp] theorem Block.setTail_acc : (b.setTail S).acc = b.acc := rfl
@[simp] theorem Block.setTail_len : (b.setTail S).len = b.len := rfl
@[simp] theorem Block.setTail_cnt : (b.setTail S).cnt = BitVec.ofNat 2 S.length := rfl
@[simp] theorem Block.setTail_tail : (b.setTail S).tail = S := rfl
@[simp] theorem Block.setTail_ovf : (b.setTail S).ovf = b.ovf := rfl
@[simp] theorem Block.setTail_ill : (b.setTail S).ill = b.ill := rfl

@[simp] theorem Block.foldWord_seed : (b.foldWord k).seed = b.seed := rfl
@[simp] theorem Block.foldWord_acc : (b.foldWord k).acc = fold b.acc k := rfl
@[simp] theorem Block.foldWord_len : (b.foldWord k).len = add32 b.len 4 := rfl
@[simp] theorem Block.foldWord_cnt : (b.foldWord k).cnt = b.cnt := rfl
@[simp] theorem Block.foldWord_tail : (b.foldWord k).tail = b.tail := rfl
@[simp] theorem Block.foldWord_ovf : (b.foldWord k).ovf = ovfAfterFold b.len b.ovf := rfl
@[simp] theorem Block.foldWord_ill : (b.foldWord k).ill = b.ill := rfl

@[simp] theorem Block.restart_seed : (b.restart k).seed = k := rfl
@[simp] theorem Block.restart_acc : (b.restart k).acc = k := rfl
@[simp] theorem Block.restart_len : (b.restart k).len = 0 := rfl
@[simp] theorem Block.restart_cnt : (b.restart k).cnt = 0 := rfl
@[simp] theorem Block.restart_tail : (b.restart k).tail = [] := rfl
@[simp] theorem Block.restart_ovf : (b.restart k).ovf = false := rfl
@[simp] theorem Block.restart_ill : (b.restart k).ill = b.ill := rfl

@[simp] theorem Block.markIllegal_seed : b.markIllegal.seed = b.seed := rfl
@[simp] theorem Block.markIllegal_acc : b.markIllegal.acc = b.acc := rfl
@[simp] theorem Block.markIllegal_len : b.markIllegal.len = b.len := rfl
@[simp] theorem Block.markIllegal_cnt : b.markIllegal.cnt = b.cnt := rfl
@[simp] theorem Block.markIllegal_tail : b.markIllegal.tail = b.tail := rfl
@[simp] theorem Block.markIllegal_ovf : b.markIllegal.ovf = b.ovf := rfl
@[simp] theorem Block.markIllegal_ill : b.markIllegal.ill = true := rfl

/-- The remainder buffer is rewritten whole. -/
@[simp] theorem Block.setTail_setTail (T : List Byte) : (b.setTail T).setTail S = b.setTail S := rfl

end BlockUpdates

end Sys2Proof.Machine
end

