-- ==== Sys2Proof/Laws/Ops.lean ====
section
/-! SUPPORT. What each shared operation can do, said once. -/

namespace Sys2Proof.Machine

variable (b : Block) (s : State) (X : List Byte)

/-- Too few bytes for a word: the new ones extend the tail (R76, else-branch). -/
theorem Block.absorb_of_short (h : b.tail.length + X.length < 4) : b.absorb X = b.setTail (b.tail ++ X) := by
  have hl : (b.tail ++ X).length < 4 := by simpa using h
  unfold Block.absorb
  split
  · next heq => rw [heq] at hl; simp at hl; omega
  · rfl

/-- Enough bytes for a word: the oldest four are folded and the rest are the new tail (R76). -/
theorem Block.absorb_of_word {s0 s1 s2 s3 : Byte} {rest : List Byte} (h : b.tail ++ X = s0 :: s1 :: s2 :: s3 :: rest) :
    b.absorb X = (b.foldWord (le32 s0 s1 s2 s3)).setTail rest := by
  unfold Block.absorb
  rw [h]

/-- Everything Absorb can do: extend the tail, or fold one word. -/
theorem Block.absorb_cases :
    (b.tail.length + X.length < 4 ∧ b.absorb X = b.setTail (b.tail ++ X)) ∨
      ∃ s0 s1 s2 s3 rest, b.tail ++ X = s0 :: s1 :: s2 :: s3 :: rest ∧
        b.absorb X = (b.foldWord (le32 s0 s1 s2 s3)).setTail rest := by
  by_cases h : b.tail.length + X.length < 4
  · exact .inl ⟨h, b.absorb_of_short X h⟩
  · match hS : b.tail ++ X with
    | s0 :: s1 :: s2 :: s3 :: rest => exact .inr ⟨s0, s1, s2, s3, rest, rfl, b.absorb_of_word X hS⟩
    | [] => have := congrArg List.length hS; simp at this; simp_all
    | [_] => have := congrArg List.length hS; simp at this; omega
    | [_, _] => have := congrArg List.length hS; simp at this; omega
    | [_, _, _] => have := congrArg List.length hS; simp at this; omega

/-- Absorb writes neither the seed nor ILL. -/
@[simp] theorem Block.absorb_seed : (b.absorb X).seed = b.seed := by
  rcases b.absorb_cases X with ⟨-, h⟩ | ⟨_, _, _, _, _, -, h⟩ <;> rw [h] <;> rfl

@[simp] theorem Block.absorb_ill : (b.absorb X).ill = b.ill := by
  rcases b.absorb_cases X with ⟨-, h⟩ | ⟨_, _, _, _, _, -, h⟩ <;> rw [h] <;> rfl

/-- FIN while the digest is defined (R85). -/
theorem State.finish_of_defined (h : s.block.ovf = false) : s.finish = s.respond (s.block.digest.setWidth 64) := by
  simp [State.finish, h]

/-- FIN while OVF is set (R86). -/
theorem State.finish_of_overflow (h : s.block.ovf = true) :
    s.finish = (s.respond (Config.freeResponse s.draws)).countDraw := by
  simp [State.finish, h]

/-- FIN writes no register and adds exactly one response. -/
theorem State.finish_cases :
    s.finish.block = s.block ∧ s.finish.inputs = s.inputs ∧ s.finish.observed = s.observed ∧
      ∃ v, s.finish.rspQueue = s.rspQueue ++ [v] := by
  unfold State.finish
  split <;> exact ⟨rfl, rfl, rfl, _, rfl⟩

/-- Nothing waits: nothing is taken. -/
theorem State.takeResponse_of_empty (h : s.rspQueue = []) : s.takeResponse = s := by
  simp [State.takeResponse, h]

/-- The oldest waiting response is taken (R45). -/
theorem State.takeResponse_of_waiting {v : Response} {vs : List Response} (h : s.rspQueue = v :: vs) :
    s.takeResponse = { s with rspQueue := vs }.observe (.response v) := by
  simp [State.takeResponse, h]

/-- Taking a response leaves the block alone. -/
@[simp] theorem State.takeResponse_block : s.takeResponse.block = s.block := by
  unfold State.takeResponse
  split <;> rfl

@[simp] theorem State.readStatus_block : s.readStatus.block = s.block := rfl

/-- Hardware reset, field by field (R105). -/
@[simp] theorem State.hardReset_block : s.hardReset.block = State.reset.block := rfl
@[simp] theorem State.hardReset_inputs : s.hardReset.inputs = s.inputs := rfl
@[simp] theorem State.hardReset_rspQueue : s.hardReset.rspQueue = [] := rfl
@[simp] theorem State.hardReset_observed : s.hardReset.observed = s.observed := rfl
@[simp] theorem State.hardReset_draws : s.hardReset.draws = s.draws := rfl

end Sys2Proof.Machine
end

