-- ==== Sys2Proof/Laws/PerInstr.lean ====
section
/-! SUPPORT. A law stated per command: the word it assembles to carries its row's match value (spec/30_encoding.md R49,
spec/opcode_table.json) and no ignored bit (R50). -/

namespace Sys2Proof.Laws.CanonicalWord

/-- The `match` column of the opcode table (R49). -/
def matchOf : Instr → CmdWord
  | .wr0 => 0x000000000
  | .wr1 _ => 0x100000000
  | .wr2 _ _ => 0x200000000
  | .wr3 _ _ _ => 0x300000000
  | .wr4 _ _ _ _ => 0x400000000
  | .init _ => 0x800000000
  | .start => 0x900000000
  | .fin => 0xA00000000

/-- The assembled word's opcode bits are the row's, and nothing above the opcode's operand bits is set. -/
def Statement (i : Instr) : Prop :=
  i.wellFormed = true → commandWord (opOf (encode i)) 0 = matchOf i ∧ dataOf (encode i) = i.data

/-- The opcode field of an assembled word. -/
theorem opOf_encode (i : Instr) : opOf (encode i) = i.opcode := opOf_commandWord _ _

theorem wr0 : Statement .wr0 := fun _ => ⟨by decide, by decide⟩
theorem wr1 (b0 : Byte) : Statement (.wr1 b0) := fun _ => ⟨by rw [opOf_encode]; exact (by decide : commandWord 1 0 = 0x100000000), by simp [encode]⟩
theorem wr2 (b0 b1 : Byte) : Statement (.wr2 b0 b1) := fun _ => ⟨by rw [opOf_encode]; exact (by decide : commandWord 2 0 = 0x200000000), by simp [encode]⟩
theorem wr3 (b0 b1 b2 : Byte) : Statement (.wr3 b0 b1 b2) := fun _ => ⟨by rw [opOf_encode]; exact (by decide : commandWord 3 0 = 0x300000000), by simp [encode]⟩
theorem wr4 (b0 b1 b2 b3 : Byte) : Statement (.wr4 b0 b1 b2 b3) :=
  fun _ => ⟨by rw [opOf_encode]; exact (by decide : commandWord 4 0 = 0x400000000), by simp [encode]⟩
theorem init (seed : Word) : Statement (.init seed) := fun _ => ⟨by rw [opOf_encode]; exact (by decide : commandWord 8 0 = 0x800000000), by simp [encode]⟩
theorem start : Statement .start := fun _ => ⟨by decide, by decide⟩
theorem fin : Statement .fin := fun _ => ⟨by decide, by decide⟩

end Sys2Proof.Laws.CanonicalWord
end

