-- ==== Sys2Proof/Laws/Step.lean ====
section
/-! SUPPORT. What a command and a step can do, said once. -/

namespace Sys2Proof.Machine

/-- Every write command is Absorb on the bytes it carries. -/
theorem exec_of_isWrite {i : Instr} (h : isWrite i = true) (s : State) :
    exec i s = .next (s.setBlock (s.block.absorb (carried i))) := by
  cases i <;> first | rfl | cases h

/-- Everything a command can do. -/
theorem exec_cases {i : Instr} {s t : State} (h : exec i s = .next t) :
    (isWrite i = true ∧ t = s.setBlock (s.block.absorb (carried i))) ∨
      (∃ seed, (i = .init seed ∨ i = .start ∧ seed = s.block.seed) ∧ t = s.setBlock (s.block.restart seed)) ∨
      (i = .fin ∧ t = s.finish) := by
  cases i with
  | init seed => cases h; exact .inr (.inl ⟨seed, .inl rfl, rfl⟩)
  | start => cases h; exact .inr (.inl ⟨s.block.seed, .inr ⟨rfl, rfl⟩, rfl⟩)
  | fin => cases h; exact .inr (.inr ⟨rfl, rfl⟩)
  | wr0 => cases h; exact .inl ⟨rfl, rfl⟩
  | wr1 _ => cases h; exact .inl ⟨rfl, rfl⟩
  | wr2 _ _ => cases h; exact .inl ⟨rfl, rfl⟩
  | wr3 _ _ _ => cases h; exact .inl ⟨rfl, rfl⟩
  | wr4 _ _ _ _ => cases h; exact .inl ⟨rfl, rfl⟩

/-- Everything a step that goes on can do. -/
theorem step_cases {s t : State} (h : step s = .next t) :
    (s.inputs = [] ∧ t = s) ∨
      (∃ w rest i, s.inputs = .present w :: rest ∧ decode w = .command i ∧ exec i (s.setInputs rest) = .next t) ∨
      (∃ rest, s.inputs = .takeResponse :: rest ∧ t = (s.setInputs rest).takeResponse) ∨
      (∃ rest, s.inputs = .readStatus :: rest ∧ t = (s.setInputs rest).readStatus) ∨
      (∃ c rest, s.inputs = .assertReset c :: rest ∧ t = (s.setInputs rest).hardReset) := by
  unfold step at h
  split at h
  · next hi => cases h; exact .inl ⟨hi, rfl⟩
  · next m rest hi =>
    cases m with
    | present w =>
      cases hd : decode w with
      | command i =>
        have h' : exec i (s.setInputs rest) = .next t := by simpa [hostMove, acceptCommand, hd] using h
        exact .inr (.inl ⟨w, rest, i, hi, hd, h'⟩)
      | reserved op => simp [hostMove, acceptCommand, hd, acceptReserved] at h
    | takeResponse => cases h; exact .inr (.inr (.inl ⟨rest, hi, rfl⟩))
    | readStatus => cases h; exact .inr (.inr (.inr (.inl ⟨rest, hi, rfl⟩)))
    | assertReset c => cases h; exact .inr (.inr (.inr (.inr ⟨c, rest, hi, rfl⟩)))

/-- A run of one more step, when the first one goes on. -/
theorem core_run_succ {s t : core.State} (n : Nat) (h : core.step s = .next t) :
    core.run (n + 1) s = core.run n t := by
  rw [Host.Core.run.eq_def]
  simp only [h]

end Sys2Proof.Machine
end

