-- ==== Sys2Proof/Laws/Stream.lean ====
section
/-! SUPPORT. The words of a stream under extension by one more piece. -/

namespace Sys2Proof.Machine

/-- The partial word is what is left when the whole words are taken off. -/
theorem partialWord_length (B : List Byte) : (partialWord B).length = B.length % 4 := by
  fun_induction partialWord B with
  | case1 _ _ _ _ rest ih => simp only [List.length_cons]; omega
  | case2 T h =>
    match T, h with
    | [], _ => rfl
    | [_], _ => rfl
    | [_, _], _ => rfl
    | [_, _, _], _ => rfl
    | a :: b :: c :: d :: r, h => exact absurd rfl (h a b c d r)

/-- Extending a stream extends its partial word. -/
theorem partialWord_append (B X : List Byte) : partialWord (B ++ X) = partialWord (partialWord B ++ X) := by
  fun_induction partialWord B with
  | case1 a b c d rest ih => simpa [partialWord] using ih
  | case2 T h => rfl

/-- The words of an extended stream: the words it had, then those of its partial word with the extension. -/
theorem wholeWords_append (B X : List Byte) :
    wholeWords (B ++ X) = wholeWords B ++ wholeWords (partialWord B ++ X) := by
  fun_induction wholeWords B with
  | case1 a b c d rest ih => simp [partialWord, wholeWords, ih]
  | case2 T h => simp [partialWord]

/-- A stream of fewer than four bytes has no whole word. -/
theorem wholeWords_of_short {B : List Byte} (h : B.length < 4) : wholeWords B = [] := by
  match B, h with
  | [], _ => rfl
  | [_], _ => rfl
  | [_, _], _ => rfl
  | [_, _, _], _ => rfl
  | _ :: _ :: _ :: _ :: _, h => simp at h; omega

theorem partialWord_of_short {B : List Byte} (h : B.length < 4) : partialWord B = B := by
  match B, h with
  | [], _ => rfl
  | [_], _ => rfl
  | [_, _], _ => rfl
  | [_, _, _], _ => rfl
  | _ :: _ :: _ :: _ :: _, h => simp at h; omega

end Sys2Proof.Machine
end

