-- ==== Sys2Proof/Tests/Slice0.lean ====
section
/-! SUPPORT. Tests. Every expected value is the spec's (spec/95_test_vectors.md, or the worked example of the rule named);
then, for each statement that has hypotheses, a named theorem that shows something meeting them all. -/

namespace Sys2Proof.Tests

open Sys2Proof.Machine Sys2Proof.Safety

/-- A state in the vectors' notation `SEED ACC LEN TAIL OVF ILL`, nothing at the ports. -/
def st (seed acc len : Word) (tail : List Byte) (ovf ill : Bool) : State :=
  { State.reset with block := { seed, acc, len, cnt := BitVec.ofNat 2 tail.length, tail, ovf, ill } }

/-- `s` with the host about to make the moves `l`. -/
def facing (l : List HostMove) (s : State) : State := { s with inputs := l }

/-- The next state, if the machine goes on. -/
def next? : Host.Outcome State Fault Refusal → Option State
  | .next s => some s
  | .fault _ => none
  | .refused _ => none

/-- The fault, if the machine stops with one. -/
def fault? : Host.Outcome State Fault Refusal → Option Fault
  | .next _ => none
  | .fault f => some f
  | .refused _ => none

/-- The newest waiting response, if the machine goes on. -/
def lastResponse (o : Host.Outcome State Fault Refusal) : Option Response := (next? o).bind fun s => s.rspQueue.getLast?

/-! ### Well-formedness refuses -/

/-- A beat of five bytes (R36, R76). -/
theorem test_beat_of_five_bytes_refused : beatWellFormed [1, 2, 3, 4, 5] = false := by decide
/-- T11.19 to T11.23: every reserved opcode. -/
theorem test_reserved_words_refused :
    (([0x500000000, 0x600000000, 0x700000000, 0xB00000000, 0xC00000000, 0xD00000000, 0xE00000000, 0xF12345678,
      0xFFFFFFFFF] : List CmdWord).all fun w => !w.wellFormed) = true := by decide
/-- A word with ignored bits set is not canonical (R50, T8.21); its assembled form is. -/
theorem test_noncanonical_word_refused :
    CmdWord.canonical 0x1FFFFFF61 = false ∧ CmdWord.canonical 0x100000061 = true := by decide
/-- R18 (a), (b), (c), one breach each. -/
theorem test_block_invariant_refuses :
    blockOk { State.reset.block with tail := [1, 2, 3, 4], cnt := 0 } = false ∧
    blockOk { State.reset.block with len := 2 } = false ∧
    blockOk { State.reset.block with cnt := 1 } = false := by decide
/-- A host about to present a reserved word, and one that has (R52, R115). -/
theorem test_host_duties_refuse :
    hostOk (facing [.present 0x500000000] State.reset) = false ∧ hostOk (st 0 0 0 [] false true) = false := by decide

/-! ### Decoding and assembling -/

/-- T11.15, T11.2's pattern, T11.14, T11.4, T11.13: the write group. -/
theorem test_decode_writes :
    decode 0x0FFFFFFFF = .command .wr0 ∧ decode 0x100000061 = .command (.wr1 0x61) ∧
    decode 0x2ABCD6261 = .command (.wr2 0x61 0x62) ∧ decode 0x300636261 = .command (.wr3 0x61 0x62 0x63) ∧
    decode 0x464636261 = .command (.wr4 0x61 0x62 0x63 0x64) := by decide
/-- T11.16 to T11.18: the control group. -/
theorem test_decode_controls :
    decode 0x812345678 = .command (.init 0x12345678) ∧ decode 0x9FFFFFFFF = .command .start ∧
    decode 0xAFFFFFFFF = .command .fin := by decide
/-- T11.22, T11.19. -/
theorem test_decode_reserved : decode 0xF12345678 = .reserved 0b1111 ∧ decode 0x500000000 = .reserved 0b0101 := by decide
/-- T11.11, T11.12, T11.8, T11.9, T11.10. -/
theorem test_assemble :
    encode (.wr4 0xFF 0x00 0x00 0x80) = 0x4800000FF ∧ encode (.wr2 0x00 0xFF) = 0x20000FF00 ∧
    encode (.init 0x9747B28C) = 0x89747B28C ∧ encode .start = 0x900000000 ∧ encode .fin = 0xA00000000 := by decide
/-- The `WRITE` expansion under T11. -/
theorem test_write_text_assembles :
    (AsmLine.write [0x48, 0x65, 0x6C, 0x6C, 0x6F, 0x2C, 0x20, 0x77, 0x6F, 0x72, 0x6C, 0x64, 0x21]).assemble =
      [0x46C6C6548, 0x477202C6F, 0x4646C726F, 0x100000021] ∧
    (AsmLine.write []).assemble = [0x000000000] := by decide
/-- A text is its ASCII bytes (R55). -/
theorem test_text_is_ascii : asciiBytes "key1" = [0x6B, 0x65, 0x79, 0x31] := by decide
/-- A table word of 36 bits is presented and performed first; one that needs more bits is no command. -/
theorem test_table_words :
    decodeTableWord 40 0x100000061 = some (.wr1 0x61) ∧ decodeTableWord 40 0x500000000 = none ∧
    decodeTableWord 40 0x1100000061 = none ∧
    next? (step (State.reset.withFetchWord 40 0x100000061)) = some (st 0 0 0 [0x61] false false) := by decide

/-! ### Mixing functions -/

/-- T1.5, T1.7, T1.10, T1.16, T1.19, T1.24. -/
theorem test_arithmetic :
    mul32 0xCCCCCCCD 5 = 1 ∧ add32 0xFFFFFFFC 4 = 0 ∧ rotl32 1 31 = 0x80000000 ∧ shr32 0xFFFFFFFF 13 = 0x0007FFFF ∧
    le32 0x21 0x43 0x65 0x87 = 0x87654321 ∧ padword [0xAA, 0xBB, 0xCC] = 0x00CCBBAA := by decide
/-- T2.13, T2.16. -/
theorem test_scramble : scramble 0x87654321 = 0x5082EDEE ∧ scramble 0x04030201 = 0xF93BDA2F := by decide
/-- T4.6, T4.7, T4.8. -/
theorem test_fold :
    fold 0x86A7049E 0x68676665 = 0xA6C877AF ∧ fold 1 0 = 0xE6550B64 ∧ fold 0x9747B28C 0x6C6C6548 = 0xDAE4C92E := by decide
/-- T3.5 (the shift is logical), T3.7. -/
theorem test_avalanche : avalanche 0xFFFFFFFF = 0x81F16F39 ∧ avalanche 0xDEADBEEF = 0x0DE5C6A9 := by decide
/-- T6.7, T6.9, T6.10: the largest lengths. -/
theorem test_finalize :
    finalize 0x3BD692AF 0xC [0x21] = 0x24884CBA ∧ finalize 0x42AF2BBC 0xFFFFFFFC [5, 6, 7] = 0x9B439C73 ∧
    finalize 0x11111111 0xFFFFFFFC [0xAA, 0xBB, 0xCC] = 0x31D857B3 := by decide
/-- T5.13, T5.7, T5.30. -/
theorem test_digest :
    digest 0x9747B28C [0x48, 0x65, 0x6C, 0x6C, 0x6F, 0x2C, 0x20, 0x77, 0x6F, 0x72, 0x6C, 0x64, 0x21] = 0x24884CBA ∧
    digest 0 [0x61, 0x62, 0x63, 0x64] = 0x43ED676A ∧
    digest 0x12345678 [0x80, 0x81, 0x82, 0x83, 0x84, 0x85, 0x86] = 0xC903DB4F := by decide
/-- T16.5: appending bytes need not change the digest, so the model must not forbid it. -/
theorem test_length_is_no_law : digest 0 [0x7A, 0x9B, 0x47, 0xC2] = digest 0 [] := by decide

/-! ### Commands -/

/-- R75's worked example, and T8.16. -/
theorem test_wr0_folds_nothing :
    next? (exec .wr0 (st 0 0x86A7049E 4 [0x65, 0x66, 0x67] false false)) =
      some (st 0 0x86A7049E 4 [0x65, 0x66, 0x67] false false) := by decide
/-- T8.17. -/
theorem test_wr1_completes_a_word :
    next? (exec (.wr1 0xAA) (st 0 0 0 [0x11, 0x22, 0x33] false false)) = some (st 0 0x3A6A08E2 4 [] false false) := by decide
/-- T13.4: the wrap sets OVF. -/
theorem test_wr1_wraps :
    next? (exec (.wr1 4) (st 0x12345678 0xCAFEBABE 0xFFFFFFFC [1, 2, 3] false false)) =
      some (st 0x12345678 0x42AF2BBC 0 [] true false) := by decide
/-- T8.18: the beat is split. -/
theorem test_wr2_splits :
    next? (exec (.wr2 0xAA 0xBB) (st 0 0 0 [0x11, 0x22, 0x33] false false)) =
      some (st 0 0x3A6A08E2 4 [0xBB] false false) := by decide
/-- T13.7: OVF is sticky, the write goes on. -/
theorem test_wr2_keeps_ovf :
    next? (exec (.wr2 1 2) (st 0 0x02449958 0 [] true false)) = some (st 0 0x02449958 0 [1, 2] true false) := by decide
/-- T8.9. -/
theorem test_wr3_completes_a_word :
    next? (exec (.wr3 0xAA 0xBB 0xCC) (st 0 0 0 [0x11] false false)) = some (st 0 0xD5E4B130 4 [] false false) := by decide
/-- T13.5: extending the tail at the last length sets no OVF. -/
theorem test_wr3_extends_at_last_length :
    next? (exec (.wr3 0xAA 0xBB 0xCC) (st 0 0x11111111 0xFFFFFFFC [] false false)) =
      some (st 0 0x11111111 0xFFFFFFFC [0xAA, 0xBB, 0xCC] false false) := by decide
/-- T8.15. -/
theorem test_wr4_keeps_count :
    next? (exec (.wr4 0xAA 0xBB 0xCC 0xDD) (st 0 0 0 [0x11, 0x22] false false)) =
      some (st 0 0x0C84237B 4 [0xCC, 0xDD] false false) := by decide
/-- P5, command 3. -/
theorem test_wr4_wraps :
    next? (exec (.wr4 5 6 7 8) (st 0x12345678 0x42AF2BBC 0xFFFFFFFC [] false false)) =
      some (st 0x12345678 0x104A464E 0 [] true false) := by decide
/-- T7.2: everything of the old stream is gone, ILL is kept. -/
theorem test_init_keeps_ill :
    next? (exec (.init 0x9747B28C) (st 0 0xCAFEBABE 0x40 [9, 9] true true)) =
      some (st 0x9747B28C 0x9747B28C 0 [] false true) := by decide
/-- T7.3. -/
theorem test_start_keeps_seed :
    next? (exec .start (st 0x9747B28C 0xCAFEBABE 0x40 [9, 9] true false)) =
      some (st 0x9747B28C 0x9747B28C 0 [] false false) := by decide
/-- T7.7: START ignores its data. -/
theorem test_start_ignores_data :
    next? (acceptCommand 0x9ABCDEF01 (st 7 0xCAFEBABE 0x40 [9] false false)) = some (st 7 7 0 [] false false) := by decide
/-- T10.3: zero-extended. -/
theorem test_fin_zero_extends :
    lastResponse (exec .fin (st 0xFFFFFFFF 0xFFFFFFFF 0 [] false false)) = some 0x0000000081F16F39 := by decide
/-- T13.2: the largest defined length; the block is not written. -/
theorem test_fin_at_largest_length :
    lastResponse (exec .fin (st 0x12345678 0x42AF2BBC 0xFFFFFFFC [5, 6, 7] false false)) = some 0x000000009B439C73 ∧
    ((next? (exec .fin (st 0x12345678 0x42AF2BBC 0xFFFFFFFC [5, 6, 7] false false))).map (·.block)) =
      some (st 0x12345678 0x42AF2BBC 0xFFFFFFFC [5, 6, 7] false false).block := by decide
/-- T13.3: under OVF one response comes; nothing can be said of it. -/
theorem test_fin_under_ovf_responds_once :
    ((next? (exec .fin (st 0x12345678 0x104A464E 0 [] true false))).map fun s => s.rspQueue.length) = some 1 := by rfl
/-- T14.1: the model faults on a reserved word; the hardware sets ILL. -/
theorem test_reserved_word :
    fault? (step (facing [.present 0xF12345678] (st 0x12345678 0x104A464E 0 [9, 0xA] true false))) =
      some (.reservedCommand (st 0x12345678 0x104A464E 0 [9, 0xA] true true)) ∧
    (hardwareStep (facing [.present 0xF12345678] (st 0x12345678 0x104A464E 0 [9, 0xA] true false))).block.status = 0b1110 := by
  decide
/-- T14.6, R105: reset clears ILL and drops a waiting response. -/
theorem test_reset :
    next? (step { facing [.assertReset (some 0x100000061)] (st 5 6 8 [9] true true) with rspQueue := [1] }) =
      some State.reset := by decide
/-- A response is taken from the front (R45). -/
theorem test_take_response :
    next? (step { facing [.takeResponse] State.reset with rspQueue := [1, 2] }) =
      some { State.reset with rspQueue := [2], observed := [.response 1] } := by decide
/-- T13.7's STATUS, read by the host. -/
theorem test_read_status :
    next? (step (facing [.readStatus] (st 0 0x02449958 0 [1, 2] true false))) =
      some { st 0 0x02449958 0 [1, 2] true false with observed := [.status 0b0110] } := by decide

/-! ### Hypotheses that can be met

`witness_<statement>` shows something that meets the hypotheses of Obligations.<statement>, at boundary values, clause by
clause where it has several. -/

/-- A state one byte before the wrap, a state past it, and a fresh one under another seed. -/
def nearWrap : State := st 0x12345678 0xCAFEBABE 0xFFFFFFFC [1, 2, 3] false false
@[inherit_doc nearWrap] def pastWrap : State := st 0x12345678 0x104A464E 0 [9, 0xA] true false
@[inherit_doc nearWrap] def fresh : State := st 0xFFFFFFFF 0xFFFFFFFF 0 [] false false

theorem witness_EncodeOfDecodeClearsIgnoredBits :
    decode 0x1FFFFFF61 = .command (.wr1 0x61) ∧ decode 0xA55555555 = .command .fin := by decide
/-- Both sides of every clause, at the lowest and the highest word of the opcode. -/
theorem witness_MatchAndMaskDecideTheCommand :
    (([0x000000000, 0x0FFFFFFFF] : List CmdWord).all fun w => w &&& 0xF00000000 == 0x000000000) = true ∧
    (([0x100000000, 0x1FFFFFFFF] : List CmdWord).all fun w => w &&& 0xF00000000 == 0x100000000) = true ∧
    (([0x200000000, 0x2FFFFFFFF] : List CmdWord).all fun w => w &&& 0xF00000000 == 0x200000000) = true ∧
    (([0x300000000, 0x3FFFFFFFF] : List CmdWord).all fun w => w &&& 0xF00000000 == 0x300000000) = true ∧
    (([0x400000000, 0x4FFFFFFFF] : List CmdWord).all fun w => w &&& 0xF00000000 == 0x400000000) = true ∧
    (([0x800000000, 0x8FFFFFFFF] : List CmdWord).all fun w => w &&& 0xF00000000 == 0x800000000) = true ∧
    (([0x900000000, 0x9FFFFFFFF] : List CmdWord).all fun w => w &&& 0xF00000000 == 0x900000000) = true ∧
    (([0xA00000000, 0xAFFFFFFFF] : List CmdWord).all fun w => w &&& 0xF00000000 == 0xA00000000) = true := by decide
/-- Each side of the disjunction, where the two meet: 0b0100 and 0b0101, 0b1010 and 0b1011. -/
theorem witness_DecoderIsTotalByOpcode :
    decode 0x4FFFFFFFF = .command (.wr4 0xFF 0xFF 0xFF 0xFF) ∧ decode 0x500000000 = .reserved 0b0101 ∧
    decode 0x7FFFFFFFF = .reserved 0b0111 ∧ decode 0x800000000 = .command (.init 0) ∧
    decode 0xAFFFFFFFF = .command .fin ∧ decode 0xB00000000 = .reserved 0b1011 := by decide
theorem witness_IgnoredBitsHaveNoEffect :
    (([(0x1FFFFFF61, 0x100000061), (0x0DEADBEEF, 0x000000000), (0xF12345678, 0xF00000000), (0x4FFFFFFFF, 0x4FFFFFFFF)] :
      List (CmdWord × CmdWord)).all fun p =>
        opOf p.1 == opOf p.2 && (p.1 &&& readMask (opOf p.1) == p.2 &&& readMask (opOf p.1))) = true := by decide
theorem witness_OperandsAreTheLanesOfData :
    decode 0x000000000 = .command .wr0 ∧ isWrite .wr0 = true ∧
    decode 0x464636261 = .command (.wr4 0x61 0x62 0x63 0x64) ∧ isWrite (.wr4 0x61 0x62 0x63 0x64) = true ∧
    decode 0x8FFFFFFFF = .command (.init 0xFFFFFFFF) ∧ 0 ≤ 4 ∧ 4 ≤ 4 ∧ 3 < (beat 4 0x64636261).length := by decide
theorem witness_StepPerformsThePresentedCommand :
    (facing [.present 0x900000000, .readStatus] nearWrap).inputs = .present 0x900000000 :: [.readStatus] ∧
    decode 0x900000000 = .command .start ∧ State.reset.inputs = [] ∧
    decodeTableWord 36 0x8FFFFFFFF = some (.init 0xFFFFFFFF) ∧ decodeTableWord 36 0 = some .wr0 := by decide
theorem witness_ReservedCommandFaultsAndSetsIll :
    (facing [.present 0x500000000] pastWrap).inputs = .present 0x500000000 :: [] ∧
    opOf 0x500000000 ∈ ([0b0101, 0b0110, 0b0111, 0b1011, 0b1100, 0b1101, 0b1110, 0b1111] : List Opcode) ∧
    opOf 0xFFFFFFFFF ∈ ([0b0101, 0b0110, 0b0111, 0b1011, 0b1100, 0b1101, 0b1110, 0b1111] : List Opcode) ∧
    (st 0 0 0 [] false true).block.ill = true ∧ (st 0 0 0 [] false true).inputs = [] := by decide
/-- Each side of the disjunction. -/
theorem witness_StepStopsOnlyOnReserved :
    (next? (step (facing [.present 0x4FFFFFFFF] nearWrap))).isSome = true ∧
    (fault? (step (facing [.present 0x500000000] nearWrap))).isSome = true ∧
    CmdWord.wellFormed 0x500000000 = false := by decide
theorem witness_WellBehavedHostNeverStops :
    hostOk (facing [.present 0x4FFFFFFFF, .present 0xA00000000, .takeResponse, .assertReset none] pastWrap) = true := by decide
theorem witness_RotateAndShiftMoveBits : 0 < 1 ∧ 1 < 32 ∧ 31 < 32 ∧ 32 - 1 ≤ 31 ∧ 32 - 31 ≤ 1 ∧ 0 < 32 := by decide
theorem witness_FinalizeMixesTheTotalLength :
    ([] : List Byte).length ≤ 3 ∧ ([5, 6, 7] : List Byte).length ≤ 3 ∧ (0 : Word).toNat % 4 = 0 ∧
    (0xFFFFFFFC : Word).toNat % 4 = 0 := by decide
theorem witness_InitLoadsTheSeedAndBeginsFresh : opOf 0x800000000 = 0b1000 ∧ opOf 0x8FFFFFFFF = 0b1000 := by decide
theorem witness_StartBeginsFreshWithTheStoredSeed : opOf 0x900000000 = 0b1001 ∧ opOf 0x9FFFFFFFF = 0b1001 := by decide
theorem witness_HashDependsOnSeedAndBytesAlone :
    ([] : List Byte).length < 2 ^ 32 ∧ ([1, 2, 3, 4, 5] : List Byte).length < 2 ^ 32 := by decide
theorem witness_HardwareResetRestoresTheBlock :
    (facing [.assertReset (some 0x100000061), .readStatus] pastWrap).inputs =
      .assertReset (some 0x100000061) :: [.readStatus] := by decide
theorem witness_AbsorbFollowsThePseudocode :
    isWrite .wr0 = true ∧ isWrite (.wr4 1 2 3 4) = true ∧
    nearWrap.block.tail.length ≤ 3 ∧ fresh.block.tail.length ≤ 3 ∧ ([] : List Byte).length ≤ 4 ∧
    ([1, 2, 3, 4] : List Byte).length ≤ 4 := by decide
theorem witness_Wr0ChangesNothing : opOf 0x0FFFFFFFF = 0b0000 ∧ blockOk nearWrap.block = true ∧ blockOk fresh.block = true := by
  decide
/-- Every tail count, at the last length and at the first. -/
theorem witness_Wr1ByTailCount :
    opOf 0x1FFFFFFFF = 0b0001 ∧ fresh.block.tail = [] ∧ (st 0 0 0 [1] false false).block.tail = [1] ∧
    pastWrap.block.tail = [9, 0xA] ∧ nearWrap.block.tail = [1, 2, 3] ∧ nearWrap.block.len = 0xFFFFFFFC ∧
    pastWrap.block.len ≠ 0xFFFFFFFC := by decide
theorem witness_Wr2ByTailCount :
    opOf 0x2FFFFFFFF = 0b0010 ∧ fresh.block.tail = [] ∧ (st 0 0 0xFFFFFFFC [1] false false).block.tail = [1] ∧
    pastWrap.block.tail = [9, 0xA] ∧ nearWrap.block.tail = [1, 2, 3] := by decide
theorem witness_Wr3ByTailCount :
    opOf 0x3FFFFFFFF = 0b0011 ∧ fresh.block.tail = [] ∧ (st 0 0 0xFFFFFFFC [1] false false).block.tail = [1] ∧
    pastWrap.block.tail = [9, 0xA] ∧ nearWrap.block.tail = [1, 2, 3] := by decide
theorem witness_Wr4ByTailCount :
    opOf 0x4FFFFFFFF = 0b0100 ∧ fresh.block.tail = [] ∧ (st 0 0 0xFFFFFFFC [1] false false).block.tail = [1] ∧
    pastWrap.block.tail = [9, 0xA] ∧ nearWrap.block.tail = [1, 2, 3] := by decide
theorem witness_LaneOrderIsStreamOrder :
    decode 0x0FFFFFFFF = .command .wr0 ∧ isWrite .wr0 = true ∧ isWrite (.wr4 0x61 0x62 0x63 0x64) = true ∧
    decode 0x464636261 = .command (.wr4 0x61 0x62 0x63 0x64) ∧
    opOf 0x464636261 = 0b0100 ∧ fresh.block.tail = [] ∧ blockOk fresh.block = true ∧ blockOk nearWrap.block = true := by decide
theorem witness_PositionAdvancesByBytesWritten :
    isWrite .wr0 = true ∧ isWrite (.wr4 1 2 3 4) = true ∧ blockOk fresh.block = true ∧ blockOk nearWrap.block = true := by decide
theorem witness_WordsOfTheStreamByOffset :
    0 < ([1, 2, 3, 4] : List Byte).length / 4 ∧ 1 < ([1, 2, 3, 4, 5, 6, 7, 8, 9] : List Byte).length / 4 := by decide

theorem fresh_isFresh : fresh.block.IsFresh 0xFFFFFFFF := ⟨rfl, rfl, rfl, rfl, rfl, rfl⟩
/-- A sequence with WR0 and FIN in it, and the empty one. -/
theorem witness_StateIsAFunctionOfTheStream :
    fresh.block.IsFresh 0xFFFFFFFF ∧ fresh.block.ill = false ∧
    (∀ i ∈ ([.wr3 1 2 3, .wr0, .fin, .wr4 4 5 6 7] : List Instr), continuesStream i = true) ∧
    (([.wr3 1 2 3, .wr0, .fin, .wr4 4 5 6 7] : List Instr).flatMap carried).length < 2 ^ 32 ∧
    (([] : List Instr).flatMap carried).length < 2 ^ 32 := ⟨fresh_isFresh, by decide, by decide, by decide, by decide⟩
/-- There is a command sequence for every stream length that is a multiple of four. -/
theorem exists_stream (n : Nat) :
    ∃ is : List Instr, (∀ i ∈ is, continuesStream i = true) ∧ (is.flatMap carried).length = 4 * n := by
  induction n with
  | zero => exact ⟨[], by simp, rfl⟩
  | succ n ih =>
    obtain ⟨is, h1, h2⟩ := ih
    refine ⟨.wr4 1 2 3 4 :: is, ?_, ?_⟩
    · simpa [continuesStream] using h1
    · simp only [List.flatMap_cons, List.length_append, h2, carried, List.length_cons, List.length_nil]
      omega
/-- A stream of exactly 2^32 bytes, and one of fewer. -/
theorem witness_OverlongStreamStaysDefined :
    fresh.block.IsFresh 0xFFFFFFFF ∧ fresh.block.ill = false ∧
    (∃ is : List Instr, (∀ i ∈ is, continuesStream i = true) ∧ (is.flatMap carried).length = 2 ^ 32) ∧
    (∀ i ∈ ([.wr1 1] : List Instr), continuesStream i = true) ∧ ¬ 2 ^ 32 ≤ (([.wr1 1] : List Instr).flatMap carried).length := by
  refine ⟨fresh_isFresh, by decide, ?_, by decide, by decide⟩
  obtain ⟨is, h1, h2⟩ := exists_stream 1073741824
  exact ⟨is, h1, by omega⟩
theorem witness_OvfIsSetAtTheWrapAndClearedByAFreshStart :
    fresh.block.IsFresh 0xFFFFFFFF ∧ fresh.block.ill = false ∧
    ∃ is : List Instr, (∀ i ∈ is, continuesStream i = true) ∧ (is.flatMap carried).length = 2 ^ 32 :=
  ⟨fresh_isFresh, by decide, witness_OverlongStreamStaysDefined.2.2.1⟩
theorem witness_ChunkingDoesNotMatter :
    blockOk nearWrap.block = true ∧ nearWrap.block.ill = false ∧
    (∀ i ∈ ([.wr4 1 2 3 4, .wr1 5] : List Instr), isWrite i = true) ∧
    (∀ i ∈ ([.wr2 1 2, .wr0, .wr3 3 4 5] : List Instr), isWrite i = true) ∧
    ([.wr4 1 2 3 4, .wr1 5] : List Instr).flatMap carried = ([.wr2 1 2, .wr0, .wr3 3 4 5] : List Instr).flatMap carried := by
  decide
theorem witness_WriteSliceIsAnyCuttingIntoBeats :
    blockOk nearWrap.block = true ∧ ∀ X ∈ ([[1, 2, 3, 4], [], [5], [6, 7]] : List (List Byte)), beatWellFormed X = true := by
  decide
theorem witness_WriteExpansionWritesTheSlice :
    blockOk nearWrap.block = true ∧ ([1, 2, 3, 4, 5] : List Byte) ≠ [] ∧
    (∀ i ∈ ([.wr2 1 2, .wr0, .wr3 3 4 5] : List Instr), isWrite i = true) ∧
    ([.wr2 1 2, .wr0, .wr3 3 4 5] : List Instr).flatMap carried = [1, 2, 3, 4, 5] := by decide
theorem witness_SequencesWithTheSameStreamsAgree :
    blockOk nearWrap.block = true ∧ nearWrap.block.ill = false ∧
    ([.wr2 1 2, .fin, .start, .wr0, .wr3 3 4 5, .fin] : List Instr).flatMap
        (fun i => if isWrite i then (carried i).map Instr.wr1 else [i]) =
      ([.wr1 1, .wr1 2, .fin, .start, .wr1 3, .wr2 4 5, .fin] : List Instr).flatMap
        (fun i => if isWrite i then (carried i).map Instr.wr1 else [i]) := by decide
theorem witness_FinRespondsWithTheDigest :
    opOf 0xA55555555 = 0b1010 ∧ nearWrap.block.ovf = false ∧ pastWrap.block.ovf = true ∧
    fresh.block.IsFresh fresh.block.seed := ⟨by decide, by decide, by decide, fresh_isFresh⟩
theorem witness_FinUnderOverflowDrawsAFreeValue : pastWrap.block.ovf = true := by decide
theorem witness_FinRespondsWithTheDigestOfTheStream :
    fresh.block.IsFresh 0xFFFFFFFF ∧ fresh.block.ill = false ∧
    (∀ i ∈ ([.wr3 1 2 3, .fin, .wr2 4 5] : List Instr), continuesStream i = true) ∧
    (([.wr3 1 2 3, .fin, .wr2 4 5] : List Instr).flatMap carried).length < 2 ^ 32 ∧ nearWrap.block.ill = false ∧
    ([1, 2, 3, 4, 5] : List Byte).length < 2 ^ 32 ∧ ([] : List Byte).length < 2 ^ 32 :=
  ⟨fresh_isFresh, by decide, by decide, by decide, by decide, by decide, by decide⟩
theorem witness_FinIsRepeatableAndHarmless :
    blockOk nearWrap.block = true ∧ nearWrap.block.ovf = false ∧ nearWrap.block.ill = false := by decide
theorem witness_StatusShowsCntOvfIll :
    (facing [.readStatus] pastWrap).inputs = .readStatus :: [] ∧
    (st 1 2 4 [7, 8] true false).block.status = pastWrap.block.status ∧
    (st 1 2 4 [7, 8] true false).block ≠ pastWrap.block ∧
    (facing [.present 0x4FFFFFFFF] pastWrap).inputs = .present 0x4FFFFFFFF :: [] ∧ opOf 0x4FFFFFFFF ≠ 0b1010 := by decide
/-- Clause by clause: a write that folds and one that does not, under OVF and not; a reserved word; reset; two states that
agree only on what the table's command reads. -/
theorem witness_AccessTable :
    (Instr.fin ≠ .start ∧ isWrite (.wr1 1) = true ∧ fresh.block.tail.length + (carried (.wr3 1 2 3)).length < 4 ∧
      isWrite (.wr4 1 2 3 4) = true ∧ pastWrap.block.ovf = true ∧ blockOk pastWrap.block = true) ∧
    ((facing [.present 0xF00000000] nearWrap).inputs = .present 0xF00000000 :: [] ∧ CmdWord.wellFormed 0xF00000000 = false) ∧
    (facing [.assertReset none] nearWrap).inputs = .assertReset none :: [] ∧
    (nearWrap.block.tail = (st 0 0xCAFEBABE 0xFFFFFFFC [1, 2, 3] false true).block.tail ∧
      nearWrap.block.acc = (st 0 0xCAFEBABE 0xFFFFFFFC [1, 2, 3] false true).block.acc ∧
      nearWrap.block.len = (st 0 0xCAFEBABE 0xFFFFFFFC [1, 2, 3] false true).block.len ∧
      nearWrap.block.ovf = (st 0 0xCAFEBABE 0xFFFFFFFC [1, 2, 3] false true).block.ovf) ∧
    nearWrap.block.seed = pastWrap.block.seed := by decide
theorem witness_SeedIsWrittenByInitAndReadByStart : Instr.wr0 ≠ .start ∧ Instr.fin ≠ .start ∧ ∀ y, Instr.fin ≠ .init y := by
  refine ⟨by decide, by decide, fun y h => nomatch h⟩
/-- Every kind of next move. -/
theorem witness_ResponsesAreDeliveredInFinOrder :
    (next? (step (facing [.present 0xA00000000] fresh))).isSome = true ∧
    (next? (step (facing [.present 0x4FFFFFFFF] fresh))).isSome = true ∧
    (next? (step { facing [.takeResponse] fresh with rspQueue := [7, 8] })).isSome = true ∧
    (next? (step (facing [.takeResponse] fresh))).isSome = true ∧
    (next? (step (facing [.assertReset none] fresh))).isSome = true ∧
    (next? (step (facing [.readStatus] fresh))).isSome = true ∧ (next? (step fresh)).isSome = true := by decide
theorem witness_OnlyCommandsAndResetChangeTheBlock :
    (∀ w rest, (facing [.takeResponse] nearWrap).inputs ≠ .present w :: rest) ∧
    (∀ c rest, (facing [.takeResponse] nearWrap).inputs ≠ .assertReset c :: rest) ∧
    (∀ w rest, nearWrap.inputs ≠ .present w :: rest) := by
  refine ⟨fun w rest h => ?_, fun c rest h => ?_, fun w rest h => ?_⟩ <;> cases h
theorem witness_EveryStepKeepsTheBlockInvariant :
    blockOk (facing [.present 0x4FFFFFFFF] nearWrap).block = true ∧ blockOk (facing [.present 0x500000000] pastWrap).block = true := by
  decide
/-- A sequence with a FIN that draws no free value and ends with OVF = 0: the inner premises of Wr0ChangesNothing,
ChunkingDoesNotMatter, SequencesWithTheSameStreamsAgree, FinIsRepeatableAndHarmless; and one command each for
IllIsSetByReservedAndClearedByReset and SeedIsWrittenByInitAndReadByStart. -/
theorem witness_no_free_value_drawn :
    ((next? (execAll [.wr4 1 2 3 4, .fin] fresh)).map fun t => (t.draws, t.block.ovf)) = some (fresh.draws, false) ∧
    ((next? (exec .fin fresh)).map fun t => t.draws) = some fresh.draws := by decide
/-- A block that holds the stream 61 62 63 64 65 under seed 0 (T6.4's registers), and one that holds the empty stream. -/
theorem witness_HoldingAStreamImpliesTheBlockInvariant :
    (st 0 0x86A7049E 4 [0x65] false false).block.Holds [0x61, 0x62, 0x63, 0x64, 0x65] ∧ fresh.block.Holds [] :=
  ⟨⟨by decide, by decide, by decide, by decide, by decide⟩, ⟨by decide, by decide, by decide, by decide, by decide⟩⟩
theorem witness_EveryStepKeepsTheStreamInvariant :
    (st 0 0x86A7049E 4 [0x65] false false).block.Holds [0x61, 0x62, 0x63, 0x64, 0x65] ∧
    next? (step (facing [.present 0x100000066] (st 0 0x86A7049E 4 [0x65] false false))) =
      some (st 0 0x86A7049E 4 [0x65, 0x66] false false) :=
  ⟨witness_HoldingAStreamImpliesTheBlockInvariant.1, by decide⟩
theorem witness_AccFoldsTheCompletedWords :
    (st 0 0x86A7049E 4 [0x65] false false).block.Holds [0x61, 0x62, 0x63, 0x64, 0x65] ∧
    (st 0 0x86A7049E 4 [0x65] false false).block.ovf = false :=
  ⟨witness_HoldingAStreamImpliesTheBlockInvariant.1, by decide⟩
theorem witness_LenAdvancesByFourPerWord :
    (st 0 0x86A7049E 4 [0x65] false false).block.Holds [0x61, 0x62, 0x63, 0x64, 0x65] ∧
    (st 0 0x86A7049E 4 [0x65] false false).block.ovf = false :=
  ⟨witness_HoldingAStreamImpliesTheBlockInvariant.1, by decide⟩
theorem witness_TailHoldsTheNewestBytes :
    blockOk (facing [.present 0x4FFFFFFFF] nearWrap).block = true ∧ blockOk (facing [.present 0x9FFFFFFFF] pastWrap).block = true := by
  decide

end Sys2Proof.Tests
end

/-! PROOFS of the statements about the block's items (spec/10_state.md): the opcode of a decoded word; the block after
a command and after a step of the hardware, field by field; the two invariants; the access table. -/

namespace Sys2Proof

/-! ### The opcode of a decoded word -/

theorem opcode_eq_of_decode {w : CmdWord} {i : Instr} (h : decode w = .command i) : i.opcode = opOf w := by
  unfold decode at h
  split at h <;> cases h <;> exact BitVec.eq_of_toNat_eq (Eq.symm ‹_›)

theorem reservedOpcodes_contains_of_decode {w : CmdWord} {op : Opcode} (h : decode w = .reserved op) :
    reservedOpcodes.contains (opOf w) = true := by
  unfold decode at h
  split at h
  case h_9 =>
    have hlt := (opOf w).isLt
    have hnat : (opOf w).toNat ∈ reservedOpcodes.map BitVec.toNat := by
      change _ ∈ [5, 6, 7, 11, 12, 13, 14, 15]
      simp only [imp_false, List.mem_cons, List.not_mem_nil, or_false] at *
      omega
    exact List.contains_iff_mem.2 ((List.mem_map_of_injective fun _ _ => BitVec.eq_of_toNat_eq).1 hnat)
  all_goals cases h

/-- The opcode of a command is none of the reserved ones (R48, R52). -/
theorem reservedOpcodes_not_contains_of_decode {w : CmdWord} {i : Instr} (h : decode w = .command i) :
    reservedOpcodes.contains (opOf w) = false := by
  rw [← opcode_eq_of_decode h]
  cases i <;> rfl

/-- An INIT word carries its data field as the seed (R47). -/
theorem decode_of_opOf_init {w : CmdWord} (h : opOf w = 0b1000) : decode w = .command (.init (dataOf w)) := by
  simp [decode, h]

theorem seed_eq_of_decode_init {w : CmdWord} {seed : Word} (h : decode w = .command (.init seed)) :
    seed = w.extractLsb' 0 32 := by
  have hd := decode_of_opOf_init (opcode_eq_of_decode h).symm
  rw [h] at hd
  cases hd
  rfl

/-- A word the host must not present (R115) decodes to *reserved*. -/
theorem decode_of_not_wellFormed {w : CmdWord} (h : w.wellFormed = false) : ∃ op, decode w = .reserved op := by
  cases hd : decode w with
  | reserved op => exact ⟨op, rfl⟩
  | command i =>
    have hw : w.wellFormed = !reservedOpcodes.contains (opOf w) := rfl
    rw [h, reservedOpcodes_not_contains_of_decode hd] at hw
    cases hw

end Sys2Proof

namespace Sys2Proof.Machine

/-! ### The block after a command -/

/-- The block a command leaves, as a function of the block alone (R45: the host's list and the queue play no part). -/
def Block.perform (b : Block) : Instr → Block
  | .init seed => b.restart seed
  | .start => b.restart b.seed
  | .fin => b
  | i => b.absorb (carried i)

@[simp] theorem Block.perform_init (b : Block) (seed : Word) : b.perform (.init seed) = b.restart seed := rfl
@[simp] theorem Block.perform_start (b : Block) : b.perform .start = b.restart b.seed := rfl
@[simp] theorem Block.perform_fin (b : Block) : b.perform .fin = b := rfl

theorem Block.perform_of_isWrite {i : Instr} (h : isWrite i = true) (b : Block) :
    b.perform i = b.absorb (carried i) := by
  cases i with
  | wr0 | wr1 | wr2 | wr3 | wr4 => rfl
  | init | start | fin => cases h

/-- The four groups of commands. -/
theorem isWrite_or_control (i : Instr) : isWrite i = true ∨ (∃ seed, i = .init seed) ∨ i = .start ∨ i = .fin := by
  cases i <;> simp [isWrite]

theorem continuesStream_of_isWrite {i : Instr} (h : isWrite i = true) : continuesStream i = true := by
  cases i with
  | wr0 | wr1 | wr2 | wr3 | wr4 => rfl
  | init | start | fin => cases h

/-- No command carries more than `BEAT_BYTES` bytes. -/
theorem carried_length_le (i : Instr) : (carried i).length ≤ 4 := by
  cases i <;> simp [carried]

/-- A command short of FIN replaces the block and leaves the ports alone. -/
theorem exec_of_ne_fin {i : Instr} (h : i ≠ .fin) (s : State) : exec i s = .next (s.setBlock (s.block.perform i)) := by
  cases i with
  | fin => exact absurd rfl h
  | wr0 | wr1 | wr2 | wr3 | wr4 | init | start => rfl

theorem exec_fin (s : State) : exec .fin s = .next s.finish := rfl

/-- What a command leaves unchanged beside the block: it neither takes a host move nor delivers; FIN alone responds. -/
theorem exec_frame (i : Instr) (s : State) : ∃ t, exec i s = .next t ∧ t.block = s.block.perform i ∧
    t.inputs = s.inputs ∧ t.observed = s.observed ∧
    (i ≠ .fin → t.rspQueue = s.rspQueue ∧ t.draws = s.draws) ∧
    (i = .fin → ∃ v, t.rspQueue = s.rspQueue ++ [v]) := by
  by_cases h : i = .fin
  · subst h
    obtain ⟨hb, hin, hobs, hq⟩ := s.finish_cases
    exact ⟨_, exec_fin s, hb, hin, hobs, fun h => absurd rfl h, fun _ => hq⟩
  · exact ⟨_, exec_of_ne_fin h s, rfl, rfl, rfl, fun _ => ⟨rfl, rfl⟩, fun hf => absurd hf h⟩

/-- Every command goes on (R90), with the block of `Block.perform`. -/
theorem exec_block (i : Instr) (s : State) : ∃ t, exec i s = .next t ∧ t.block = s.block.perform i := by
  obtain ⟨t, ht, hb, -⟩ := exec_frame i s
  exact ⟨t, ht, hb⟩

theorem block_of_exec {i : Instr} {s t : State} (h : exec i s = .next t) : t.block = s.block.perform i := by
  obtain ⟨u, hu, hb⟩ := exec_block i s
  rw [h] at hu
  cases hu
  exact hb

/-! ### Absorb, field by field (R76) -/

/-- The word of the four oldest bytes of `S`. -/
def oldestWord (S : List Byte) : Word := le32 (S.getD 0 0) (S.getD 1 0) (S.getD 2 0) (S.getD 3 0)

section Absorb
variable (b : Block) (X : List Byte)

theorem Block.absorb_eq : b.absorb X =
    if 4 ≤ b.tail.length + X.length then (b.foldWord (oldestWord (b.tail ++ X))).setTail ((b.tail ++ X).drop 4)
    else b.setTail (b.tail ++ X) := by
  rcases b.absorb_cases X with ⟨hs, h⟩ | ⟨s0, s1, s2, s3, rest, hS, h⟩
  · rw [h, if_neg (by omega)]
  · have hl : 4 ≤ b.tail.length + X.length := by
      rw [← List.length_append, hS]; simp
    rw [h, if_pos hl, hS]
    rfl

theorem Block.absorb_acc : (b.absorb X).acc =
    if 4 ≤ b.tail.length + X.length then fold b.acc (oldestWord (b.tail ++ X)) else b.acc := by
  rw [b.absorb_eq]; split <;> rfl

theorem Block.absorb_len : (b.absorb X).len = if 4 ≤ b.tail.length + X.length then add32 b.len 4 else b.len := by
  rw [b.absorb_eq]; split <;> rfl

theorem ovfAfterFold_eq (len : Word) (ovf : Bool) : ovfAfterFold len ovf = (ovf || len == 0xFFFFFFFC) := by
  unfold ovfAfterFold lastLen
  split
  · next h => subst h; simp
  · next h => rw [beq_false_of_ne h, Bool.or_false]

theorem Block.absorb_ovf : (b.absorb X).ovf =
    (b.ovf || (decide (4 ≤ b.tail.length + X.length) && (b.len == 0xFFFFFFFC))) := by
  rw [b.absorb_eq]
  split
  · next h => simp [h, ovfAfterFold_eq]
  · next h => simp [h]

theorem Block.absorb_cnt : (b.absorb X).cnt = BitVec.ofNat 2 (b.absorb X).tail.length := by
  rw [b.absorb_eq]; split <;> rfl

/-- Three pending bytes at most and a beat of at most four: one word at most is taken off (R14). -/
theorem Block.absorb_tail (hb : b.tail.length ≤ 3) (hX : X.length ≤ 4) :
    (b.absorb X).tail = (b.tail ++ X).drop (4 * ((b.tail ++ X).length / 4)) := by
  rw [b.absorb_eq, List.length_append]
  split
  · have : (b.tail.length + X.length) / 4 = 1 := by omega
    rw [this]; rfl
  · have : (b.tail.length + X.length) / 4 = 0 := by omega
    rw [this]; rfl

/-- Absorb commutes with writing the items it does not read. -/
theorem Block.absorb_setIll (v : Bool) : { b with ill := v }.absorb X = { b.absorb X with ill := v } := by
  rw [Block.absorb_eq, b.absorb_eq]; split <;> rfl

theorem Block.absorb_setSeed (x : Word) : { b with seed := x }.absorb X = { b.absorb X with seed := x } := by
  rw [Block.absorb_eq, b.absorb_eq]; split <;> rfl

/-- A CNT that is the number of pending bytes makes an empty beat change nothing (R75). -/
theorem Block.absorb_nil (hb : b.tail.length ≤ 3) (hc : b.cnt.toNat = b.tail.length) : b.absorb [] = b := by
  have hcnt : BitVec.ofNat 2 b.tail.length = b.cnt := by simp [← hc]
  rw [b.absorb_of_short [] (by simpa using by omega), List.append_nil]
  unfold Block.setTail
  rw [hcnt]

end Absorb

/-! ### Every command, field by field (R19) -/

section Perform
variable (b : Block) (i : Instr)

theorem Block.perform_acc : (b.perform i).acc =
    if isWrite i then
      if 4 ≤ b.tail.length + (carried i).length then fold b.acc (oldestWord (b.tail ++ carried i)) else b.acc
    else if i = .fin then b.acc else (b.perform i).seed := by
  rcases isWrite_or_control i with h | ⟨seed, rfl⟩ | rfl | rfl
  · rw [if_pos h, b.perform_of_isWrite h, b.absorb_acc]
  all_goals simp [isWrite]

theorem Block.perform_len : (b.perform i).len =
    if isWrite i then
      if 4 ≤ b.tail.length + (carried i).length then add32 b.len 4 else b.len
    else if i = .fin then b.len else 0 := by
  rcases isWrite_or_control i with h | ⟨seed, rfl⟩ | rfl | rfl
  · rw [if_pos h, b.perform_of_isWrite h, b.absorb_len]
  all_goals simp [isWrite]

theorem Block.perform_ovf : (b.perform i).ovf =
    if isWrite i then
      b.ovf || (decide (4 ≤ b.tail.length + (carried i).length) && (b.len == 0xFFFFFFFC))
    else if i = .fin then b.ovf else false := by
  rcases isWrite_or_control i with h | ⟨seed, rfl⟩ | rfl | rfl
  · rw [if_pos h, b.perform_of_isWrite h, b.absorb_ovf]
  all_goals simp [isWrite]

theorem Block.perform_tail (hb : b.tail.length ≤ 3) : (b.perform i).tail =
    if isWrite i then (b.tail ++ carried i).drop (4 * ((b.tail ++ carried i).length / 4))
    else if i = .fin then b.tail else [] := by
  rcases isWrite_or_control i with h | ⟨seed, rfl⟩ | rfl | rfl
  · rw [if_pos h, b.perform_of_isWrite h, b.absorb_tail _ hb (carried_length_le i)]
  all_goals simp [isWrite]

theorem Block.perform_ill : (b.perform i).ill = b.ill := by
  rcases isWrite_or_control i with h | ⟨seed, rfl⟩ | rfl | rfl
  · rw [b.perform_of_isWrite h, b.absorb_ill]
  all_goals rfl

theorem Block.perform_seed (h : ∀ x, i ≠ .init x) : (b.perform i).seed = b.seed := by
  rcases isWrite_or_control i with hw | ⟨seed, rfl⟩ | rfl | rfl
  · rw [b.perform_of_isWrite hw, b.absorb_seed]
  · exact absurd rfl (h seed)
  all_goals rfl

/-- No command reads ILL (R16). -/
theorem Block.perform_setIll (v : Bool) : { b with ill := v }.perform i = { b.perform i with ill := v } := by
  rcases isWrite_or_control i with h | ⟨seed, rfl⟩ | rfl | rfl
  · rw [Block.perform_of_isWrite h, b.perform_of_isWrite h, b.absorb_setIll]
  all_goals rfl

/-- No write and no FIN reads SEED (R12). -/
theorem Block.perform_setSeed (h : continuesStream i = true) (x : Word) :
    { b with seed := x }.perform i = { b.perform i with seed := x } := by
  rcases isWrite_or_control i with hw | ⟨seed, rfl⟩ | rfl | rfl
  · rw [Block.perform_of_isWrite hw, b.perform_of_isWrite hw, b.absorb_setSeed]
  · cases h
  · cases h
  · rfl

end Perform

/-! ### A step of the hardware, by the host's next move -/

section HardwareStep
variable {s t : State} {w : CmdWord} {rest : List HostMove} {i : Instr} {op : Opcode} {c : Option CmdWord}

theorem hardwareStep_of_step (h : step s = .next t) : hardwareStep s = t := by
  simp [hardwareStep, h]

theorem hardwareStep_of_command (hi : s.inputs = .present w :: rest) (hd : decode w = .command i) :
    exec i (s.setInputs rest) = .next (hardwareStep s) := by
  obtain ⟨t, ht, -⟩ := exec_block i (s.setInputs rest)
  have hs : step s = .next t := by simp [step, hi, hostMove, acceptCommand, hd, ht]
  rw [ht, hardwareStep_of_step hs]

theorem hardwareStep_of_reserved (hi : s.inputs = .present w :: rest) (hd : decode w = .reserved op) :
    hardwareStep s = (s.setInputs rest).afterReserved := by
  simp [hardwareStep, step, hi, hostMove, acceptCommand, hd, acceptReserved, faultState]

theorem hardwareStep_of_takeResponse (hi : s.inputs = .takeResponse :: rest) :
    hardwareStep s = (s.setInputs rest).takeResponse :=
  hardwareStep_of_step (by simp [step, hi, hostMove])

theorem hardwareStep_of_readStatus (hi : s.inputs = .readStatus :: rest) :
    hardwareStep s = (s.setInputs rest).readStatus :=
  hardwareStep_of_step (by simp [step, hi, hostMove])

theorem hardwareStep_of_assertReset (hi : s.inputs = .assertReset c :: rest) :
    hardwareStep s = (s.setInputs rest).hardReset :=
  hardwareStep_of_step (by simp [step, hi, hostMove])

theorem hardwareStep_of_nil (hi : s.inputs = []) : hardwareStep s = s :=
  hardwareStep_of_step (by simp [step, hi])

/-- What a step of the hardware can do to the block: perform the presented command, mark it illegal on a reserved word,
reset it, or leave it as it is. -/
theorem hardwareStep_block (s : State) : (hardwareStep s).block =
    match s.inputs with
    | .present w :: _ =>
      match decode w with
      | .command i => s.block.perform i
      | .reserved _ => s.block.markIllegal
    | .assertReset _ :: _ => State.reset.block
    | _ => s.block := by
  match hi : s.inputs with
  | .present w :: rest =>
    cases hd : decode w with
    | command i => simp only [block_of_exec (hardwareStep_of_command hi hd), hd]; rfl
    | reserved op => simp only [hardwareStep_of_reserved hi hd, hd]; rfl
  | .assertReset c :: rest => rw [hardwareStep_of_assertReset hi]; rfl
  | .takeResponse :: rest => rw [hardwareStep_of_takeResponse hi, State.takeResponse_block]; rfl
  | .readStatus :: rest => rw [hardwareStep_of_readStatus hi]; rfl
  | [] => rw [hardwareStep_of_nil hi]

end HardwareStep

end Sys2Proof.Machine

namespace Sys2Proof.Machine

open Sys2Proof.Safety

/-! ### R18 (a) to (c) -/

theorem add32_toNat (a b : Word) : (add32 a b).toNat = (a.toNat + b.toNat) % 2 ^ 32 := by
  simp [add32]

theorem blockOk_iff (b : Block) :
    blockOk b = true ↔ b.tail.length ≤ 3 ∧ b.cnt.toNat = b.tail.length ∧ b.len.toNat % 4 = 0 := by
  simp [blockOk, and_assoc]

theorem blockOk_restart (b : Block) (seed : Word) : blockOk (b.restart seed) = true := rfl

theorem blockOk_reset : blockOk State.reset.block = true := rfl

theorem blockOk_markIllegal (b : Block) : blockOk b.markIllegal = blockOk b := rfl

theorem Block.absorb_tail_length {b : Block} {X : List Byte} (hb : b.tail.length ≤ 3) (hX : X.length ≤ 4) :
    (b.absorb X).tail.length = (b.tail.length + X.length) % 4 := by
  rw [b.absorb_tail X hb hX, List.length_drop, List.length_append]
  omega

/-- CNT is the number of TAIL's bytes, and there are at most three, after a beat too. -/
theorem Block.absorb_cnt_toNat {b : Block} {X : List Byte} (hb : b.tail.length ≤ 3) (hX : X.length ≤ 4) :
    (b.absorb X).cnt.toNat = (b.tail.length + X.length) % 4 := by
  rw [b.absorb_cnt, BitVec.toNat_ofNat, absorb_tail_length hb hX, Nat.mod_mod]

theorem blockOk_absorb {b : Block} {X : List Byte} (h : blockOk b = true) (hX : X.length ≤ 4) :
    blockOk (b.absorb X) = true := by
  obtain ⟨htail, hcnt, hlen⟩ := (blockOk_iff b).1 h
  refine (blockOk_iff _).2 ⟨?_, ?_, ?_⟩
  · rw [Block.absorb_tail_length htail hX]; omega
  · rw [Block.absorb_tail_length htail hX, Block.absorb_cnt_toNat htail hX]
  · rw [b.absorb_len]
    split
    · have h4 : (4 : Word).toNat = 4 := rfl
      rw [add32_toNat, h4]; omega
    · exact hlen

theorem blockOk_perform {b : Block} (h : blockOk b = true) (i : Instr) : blockOk (b.perform i) = true := by
  rcases isWrite_or_control i with hw | ⟨seed, rfl⟩ | rfl | rfl
  · rw [b.perform_of_isWrite hw]; exact blockOk_absorb h (carried_length_le i)
  · exact blockOk_restart b seed
  · exact blockOk_restart b b.seed
  · exact h

/-- Settles O58: every command keeps R18 (a) to (c), and so do a reserved word, reset and the host's other moves. -/
theorem everyStepKeepsTheBlockInvariant : Obligations.EveryStepKeepsTheBlockInvariant := by
  unfold Obligations.EveryStepKeepsTheBlockInvariant
  intro s h
  rw [hardwareStep_block]
  split
  · split
    · exact blockOk_perform h _
    · rwa [blockOk_markIllegal]
  · exact blockOk_reset
  · exact h

/-! ### R18 (d): the block holds its stream -/

/-- What the last arm of `wholeWords` and of `partialWord` is met with. -/
theorem length_lt_four_of_no_word {T : List Byte} (h : ∀ a b c d r, T = a :: b :: c :: d :: r → False) :
    T.length < 4 := by
  match T with
  | [] | [_] | [_, _] | [_, _, _] => simp
  | a :: b :: c :: d :: r => exact (h a b c d r rfl).elim

theorem wholeWords_length (B : List Byte) : (wholeWords B).length = B.length / 4 := by
  fun_induction wholeWords B with
  | case1 _ _ _ _ rest ih => simp only [List.length_cons, ih]; omega
  | case2 T h =>
    have hT := length_lt_four_of_no_word h
    rw [List.length_nil, Nat.div_eq_of_lt hT]

theorem foldStream_append (s : Word) (B X : List Byte) :
    foldStream s (B ++ X) = foldStream (foldStream s B) (partialWord B ++ X) := by
  simp only [foldStream, wholeWords_append B X, List.foldl_append]

/-- Four to seven bytes: one word and what is left. -/
theorem foldStream_of_word (s : Word) {S : List Byte} (h4 : 4 ≤ S.length) (h8 : S.length < 8) :
    foldStream s S = fold s (oldestWord S) := by
  match S, h4, h8 with
  | s0 :: s1 :: s2 :: s3 :: rest, _, h8 =>
    have hr : rest.length < 4 := by simp at h8; omega
    simp [foldStream, wholeWords, wholeWords_of_short hr, oldestWord]

theorem foldStream_of_short (s : Word) {S : List Byte} (h : S.length < 4) : foldStream s S = s := by
  simp [foldStream, wholeWords_of_short h]

theorem partialWord_eq_drop (B : List Byte) : partialWord B = B.drop (4 * (B.length / 4)) := by
  fun_induction partialWord B with
  | case1 a b c d rest ih =>
    have : 4 * ((rest.length + 1 + 1 + 1 + 1) / 4) = 4 * (rest.length / 4) + 4 := by omega
    simp only [List.length_cons, this, ih]
    rfl
  | case2 T h =>
    rw [Nat.div_eq_of_lt (length_lt_four_of_no_word h)]
    rfl

namespace Block.Holds
variable {b : Block} {B X : List Byte}

theorem tail_length (h : b.Holds B) : b.tail.length = B.length % 4 := by
  obtain ⟨-, -, htail, -, -⟩ := h
  rw [htail, partialWord_length]

theorem cnt_toNat (h : b.Holds B) : b.cnt.toNat = B.length % 4 := by
  obtain ⟨-, -, -, hcnt, -⟩ := h
  simp [hcnt]

theorem len_toNat (h : b.Holds B) : b.len.toNat = 4 * (B.length / 4) % 2 ^ 32 := by
  obtain ⟨-, hlen, -, -, -⟩ := h
  simp [hlen]

theorem ovf_eq (h : b.Holds B) : b.ovf = decide (2 ^ 32 ≤ B.length) := h.2.2.2.2

theorem length_lt (h : b.Holds B) (hovf : b.ovf = false) : B.length < 2 ^ 32 := by
  simpa [h.ovf_eq] using hovf

/-- The step of R81: a beat extends the stream the block holds. -/
theorem absorb (h : b.Holds B) (hX : X.length ≤ 4) : (b.absorb X).Holds (B ++ X) := by
  have htl := h.tail_length
  have hlt := h.len_toNat
  obtain ⟨hacc, hlen, htail, hcnt, hovf⟩ := h
  have hl : (B ++ X).length = B.length + X.length := List.length_append
  have hS : (b.tail ++ X).length = b.tail.length + X.length := List.length_append
  refine ⟨?_, ?_, ?_, ?_, ?_⟩
  · rw [b.absorb_acc, b.absorb_seed, foldStream_append, ← htail, ← hacc]
    split
    · rw [foldStream_of_word _ (by omega) (by omega)]
    · rw [foldStream_of_short _ (by omega)]
  · rw [b.absorb_len, hl]
    apply BitVec.eq_of_toNat_eq
    have h4 : (4 : Word).toNat = 4 := rfl
    split
    · rw [add32_toNat, h4, hlt, BitVec.toNat_ofNat]; omega
    · rw [hlt, BitVec.toNat_ofNat]; omega
  · rw [b.absorb_tail X (by omega) hX, ← partialWord_eq_drop, htail, ← partialWord_append]
  · apply BitVec.eq_of_toNat_eq
    rw [Block.absorb_cnt_toNat (by omega) hX, BitVec.toNat_ofNat, hl]
    omega
  · have hwrap : (b.len == 0xFFFFFFFC) = decide (b.len.toNat = 0xFFFFFFFC) := by
      rw [Bool.eq_iff_iff]; simp [BitVec.toNat_eq]
    rw [b.absorb_ovf, hovf, hwrap, hl, Bool.eq_iff_iff]
    simp only [Bool.or_eq_true, Bool.and_eq_true, decide_eq_true_eq]
    omega

theorem restart (b : Block) (seed : Word) : (b.restart seed).Holds [] := ⟨rfl, rfl, rfl, rfl, rfl⟩

theorem perform (h : b.Holds B) (i : Instr) :
    (b.perform i).Holds (if continuesStream i then B ++ carried i else []) := by
  rcases isWrite_or_control i with hw | ⟨seed, rfl⟩ | rfl | rfl
  · rw [b.perform_of_isWrite hw, if_pos (continuesStream_of_isWrite hw)]
    exact h.absorb (carried_length_le i)
  · exact Holds.restart b seed
  · exact Holds.restart b b.seed
  · simpa [continuesStream, carried] using h

end Block.Holds

theorem holds_reset : State.reset.block.Holds [] := ⟨rfl, rfl, rfl, rfl, rfl⟩

/-- Settles O59, by the kinds of move with which a step goes on. -/
theorem everyStepKeepsTheStreamInvariant : Obligations.EveryStepKeepsTheStreamInvariant := by
  unfold Obligations.EveryStepKeepsTheStreamInvariant
  intro s t B hB ht
  have hblock := hardwareStep_block s
  rw [hardwareStep_of_step ht] at hblock
  rw [hblock]
  rcases step_cases ht with ⟨hi, -⟩ | ⟨w, rest, i, hi, hd, -⟩ | ⟨rest, hi, -⟩ | ⟨rest, hi, -⟩ | ⟨c, rest, hi, -⟩
  · simpa only [hi] using hB
  · simpa only [hi, hd] using hB.perform i
  · simpa only [hi] using hB
  · simpa only [hi] using hB
  · simpa only [hi] using holds_reset

/-- Settles O60. -/
theorem holdingAStreamImpliesTheBlockInvariant : Obligations.HoldingAStreamImpliesTheBlockInvariant := by
  unfold Obligations.HoldingAStreamImpliesTheBlockInvariant
  intro b B h
  have htail := h.tail_length
  have hcnt := h.cnt_toNat
  have hlen := h.len_toNat
  exact (blockOk_iff b).2 ⟨by omega, by omega, by omega⟩

end Sys2Proof.Machine

namespace Sys2Proof.Machine

open Sys2Proof.Safety

/-! ### Two blocks under one command -/

/-- One command on two blocks with the same OVF and the same digest: each block goes its own way, and unless a free
value (R86) is drawn nothing else of the machine differs. -/
theorem exec_setBlock (i : Instr) (s : State) (b : Block) (hovf : b.ovf = s.block.ovf)
    (hdig : b.digest = s.block.digest) : ∃ t u, exec i s = .next t ∧ exec i (s.setBlock b) = .next u ∧
      t.block = s.block.perform i ∧ u.block = b.perform i ∧ (t.draws = s.draws → u = t.setBlock (b.perform i)) := by
  by_cases hi : i = .fin
  · subst hi
    refine ⟨_, _, exec_fin s, exec_fin _, s.finish_cases.1, (s.setBlock b).finish_cases.1, fun hd => ?_⟩
    cases ho : s.block.ovf with
    | true => simp [s.finish_of_overflow ho] at hd
    | false =>
      rw [s.finish_of_defined ho, State.finish_of_defined _ (hovf.trans ho), State.setBlock_block, hdig]
      rfl
  · exact ⟨_, _, exec_of_ne_fin hi s, exec_of_ne_fin hi _, rfl, rfl, fun _ => rfl⟩

/-! ### ILL (R16) and SEED (R12) -/

/-- Settles O11: `Block.perform_ill` and the opcode of a decoded word, then `Block.perform_setIll`. -/
theorem illIsSetByReservedAndClearedByReset : Obligations.IllIsSetByReservedAndClearedByReset := by
  unfold Obligations.IllIsSetByReservedAndClearedByReset
  refine ⟨fun s => ?_, fun i s v => ?_⟩
  · rw [hardwareStep_block]
    match s.inputs with
    | .present w :: _ =>
      dsimp only
      cases hd : decode w with
      | command i =>
        simp only [Block.perform_ill, reservedOpcodes_not_contains_of_decode hd, Bool.or_false]
      | reserved op => simp only [Block.markIllegal_ill, reservedOpcodes_contains_of_decode hd, Bool.or_true]
    | .assertReset _ :: _ | .takeResponse :: _ | .readStatus :: _ | [] => rfl
  · obtain ⟨t, u, ht, hu, htb, hub, hd⟩ := exec_setBlock i s { s.block with ill := v } rfl rfl
    rw [Block.perform_setIll, ← htb] at hub hd
    exact ⟨t, u, ht, hu, hub, hd⟩

/-- Settles O50: `Block.perform_seed` and INIT's data field, then `Block.perform_setSeed`. -/
theorem seedIsWrittenByInitAndReadByStart : Obligations.SeedIsWrittenByInitAndReadByStart := by
  unfold Obligations.SeedIsWrittenByInitAndReadByStart
  refine ⟨fun s => ?_, fun i s x hstart hinit => ?_, fun s => ⟨_, rfl, rfl⟩⟩
  · rw [hardwareStep_block]
    match s.inputs with
    | .present w :: _ =>
      dsimp only
      by_cases hop : opOf w = 0b1000
      · rw [if_pos hop, decode_of_opOf_init hop]; rfl
      · rw [if_neg hop]
        cases hd : decode w with
        | command i =>
          refine s.block.perform_seed i fun seed hseed => hop ?_
          rw [← opcode_eq_of_decode hd, hseed]; rfl
        | reserved op => rfl
    | .assertReset _ :: _ | .takeResponse :: _ | .readStatus :: _ | [] => rfl
  · have hcont : continuesStream i = true := by
      rcases isWrite_or_control i with hw | ⟨seed, rfl⟩ | rfl | rfl
      · exact continuesStream_of_isWrite hw
      · exact absurd rfl (hinit seed)
      · exact absurd rfl hstart
      · rfl
    obtain ⟨t, u, ht, hu, htb, hub, hd⟩ := exec_setBlock i s { s.block with seed := x } rfl rfl
    rw [Block.perform_setSeed _ _ hcont, ← htb] at hub hd
    exact ⟨t, u, ht, hu, hub, hd⟩

/-! ### OVF (R15) -/

/-- A command sequence that begins no new computation always runs through and extends the stream the block holds. -/
theorem execAll_holds (is : List Instr) {s : State} {B : List Byte} (h : s.block.Holds B)
    (his : ∀ i ∈ is, continuesStream i = true) :
    ∃ t, execAll is s = .next t ∧ t.block.Holds (B ++ is.flatMap carried) ∧ t.block.seed = s.block.seed := by
  induction is generalizing s B with
  | nil => exact ⟨s, rfl, by simpa using h, rfl⟩
  | cons i is ih =>
    obtain ⟨u, hu, hub⟩ := exec_block i s
    have hi : continuesStream i = true := his i (by simp)
    have hB : u.block.Holds (B ++ carried i) := by
      have hp := h.perform i
      rwa [if_pos hi, ← hub] at hp
    have hseed : u.block.seed = s.block.seed := by
      rw [hub, Block.perform_seed]
      rintro x rfl
      cases hi
    obtain ⟨t, ht, hBt, hst⟩ := ih hB fun j hj => his j (List.mem_cons_of_mem _ hj)
    refine ⟨t, ?_, by simpa using hBt, hst.trans hseed⟩
    simpa only [execAll, hu] using ht

/-- A fresh block (R24) holds the empty stream. -/
theorem Block.IsFresh.holds_nil {b : Block} {seed : Word} (h : b.IsFresh seed) : b.Holds [] := by
  obtain ⟨hseed, hacc, hlen, hcnt, htail, hovf⟩ := h
  exact ⟨by rw [hacc, hseed]; rfl, hlen, htail, hcnt, hovf⟩

/-- Settles O51: `Block.perform_ovf`, then the stream invariant over the sequence. -/
theorem ovfIsSetAtTheWrapAndClearedByAFreshStart : Obligations.OvfIsSetAtTheWrapAndClearedByAFreshStart := by
  unfold Obligations.OvfIsSetAtTheWrapAndClearedByAFreshStart
  refine ⟨fun s => ?_, fun s seed is hfresh _ his => ?_⟩
  · rw [hardwareStep_block]
    match s.inputs with
    | .present w :: _ =>
      dsimp only
      cases decode w with
      | command i => exact s.block.perform_ovf i
      | reserved op => rfl
    | .assertReset _ :: _ | .takeResponse :: _ | .readStatus :: _ | [] => rfl
  · obtain ⟨t, ht, hB, -⟩ := execAll_holds is hfresh.holds_nil his
    refine ⟨t, ht, ?_⟩
    rw [hB.ovf_eq, decide_eq_true_eq, List.nil_append]

/-! ### ACC (R11), LEN (R13), TAIL and CNT (R14) -/

/-- Settles O52: `Block.perform_acc`, then the stream invariant with LEN the exact folded length. -/
theorem accFoldsTheCompletedWords : Obligations.AccFoldsTheCompletedWords := by
  unfold Obligations.AccFoldsTheCompletedWords
  refine ⟨fun s => ?_, fun b B h => ?_⟩
  · rw [hardwareStep_block]
    match s.inputs with
    | .present w :: _ =>
      dsimp only
      cases hd : decode w with
      | reserved op => rfl
      | command i =>
        simp only [Block.perform_acc, oldestWord, List.length_append]
        rcases isWrite_or_control i with hw | ⟨seed, rfl⟩ | rfl | rfl
        · simp only [hw, if_true]
        · exact seed_eq_of_decode_init hd
        · rfl
        · rfl
    | .assertReset _ :: _ | .takeResponse :: _ | .readStatus :: _ | [] => rfl
  · cases hovf : b.ovf with
    | true => exact .inr rfl
    | false =>
      have hlt := h.length_lt hovf
      have hwords : b.len.toNat / 4 = (wholeWords B).length := by
        rw [h.len_toNat, wholeWords_length]; omega
      obtain ⟨hacc, -⟩ := h
      rw [hwords, List.take_length]
      exact .inl hacc

/-- Settles O53: `Block.perform_len`, then LEN and CNT as the stream invariant gives them. -/
theorem lenAdvancesByFourPerWord : Obligations.LenAdvancesByFourPerWord := by
  unfold Obligations.LenAdvancesByFourPerWord
  refine ⟨fun s => ?_, fun b B h => ⟨?_, fun hovf => ?_⟩⟩
  · rw [hardwareStep_block]
    match s.inputs with
    | .present w :: _ =>
      dsimp only
      cases decode w with
      | command i => exact s.block.perform_len i
      | reserved op => rfl
    | .assertReset _ :: _ | .takeResponse :: _ | .readStatus :: _ | [] => rfl
  · apply BitVec.eq_of_toNat_eq
    have h0 : (0 : BitVec 2).toNat = 0 := rfl
    rw [BitVec.extractLsb'_toNat, Nat.shiftRight_zero, h.len_toNat, h0]
    omega
  · have hlt := h.length_lt hovf
    rw [h.len_toNat, h.cnt_toNat]
    omega

/-- Settles O54: `Block.perform_tail`; CNT and the bound are the block invariant after the step. -/
theorem tailHoldsTheNewestBytes : Obligations.TailHoldsTheNewestBytes := by
  unfold Obligations.TailHoldsTheNewestBytes
  intro s h
  obtain ⟨htail', hcnt', -⟩ := (blockOk_iff _).1 (everyStepKeepsTheBlockInvariant s h)
  refine ⟨?_, hcnt', htail'⟩
  obtain ⟨htail, -⟩ := (blockOk_iff _).1 h
  rw [hardwareStep_block]
  match s.inputs with
  | .present w :: _ =>
    dsimp only
    cases decode w with
    | command i => exact s.block.perform_tail i htail
    | reserved op => rfl
  | .assertReset _ :: _ | .takeResponse :: _ | .readStatus :: _ | [] => rfl

/-! ### The position LEN + CNT (R20) -/

/-- Settles O36: a beat that completes a word moves four bytes from CNT to LEN, one that does not adds to CNT. -/
theorem positionAdvancesByBytesWritten : Obligations.PositionAdvancesByBytesWritten := by
  unfold Obligations.PositionAdvancesByBytesWritten
  intro i s hw h
  obtain ⟨htail, hcnt, -⟩ := (blockOk_iff _).1 h
  have hX := carried_length_le i
  refine ⟨_, exec_of_isWrite hw s, BitVec.eq_of_toNat_eq ?_⟩
  have h4 : (4 : Word).toNat = 4 := rfl
  simp only [State.setBlock_block, add32_toNat, BitVec.toNat_setWidth, BitVec.toNat_ofNat,
    Block.absorb_cnt_toNat htail hX, Block.absorb_len, hcnt]
  split
  · rw [add32_toNat, h4]; omega
  · omega

/-! ### STATUS (R17) -/

theorem Block.status_cnt (b : Block) : b.status.extractLsb' 0 2 = b.cnt := by
  apply BitVec.eq_of_getLsbD_eq
  intro i hi
  rw [BitVec.getLsbD_extractLsb', Block.status, BitVec.getLsbD_append]
  simp [hi]

theorem Block.status_ovf (b : Block) : b.status.getLsbD 2 = b.ovf := by
  rw [Block.status, BitVec.getLsbD_append, BitVec.getLsbD_append]
  simp

theorem Block.status_ill (b : Block) : b.status.getLsbD 3 = b.ill := by
  rw [Block.status, BitVec.getLsbD_append, BitVec.getLsbD_append]
  simp

/-- Whatever the host does short of a FIN, what it gets back depends on the block by STATUS alone. -/
theorem hardwareStep_setBlock_ports {s : State} {b : Block} (hst : b.status = s.block.status)
    (hfin : ∀ w rest, s.inputs = .present w :: rest → opOf w ≠ 0b1010) :
    (hardwareStep (s.setBlock b)).observed = (hardwareStep s).observed ∧
      (hardwareStep (s.setBlock b)).rspQueue = (hardwareStep s).rspQueue := by
  match hi : s.inputs with
  | .present w :: rest =>
    cases hd : decode w with
    | command i =>
      have hne : i ≠ .fin := by
        rintro rfl
        exact hfin w rest hi (opcode_eq_of_decode hd).symm
      have hs := hardwareStep_of_command hi hd
      have hs' := hardwareStep_of_command (s := s.setBlock b) hi hd
      rw [exec_of_ne_fin hne, Host.Outcome.next.injEq] at hs hs'
      rw [← hs, ← hs']
      exact ⟨rfl, rfl⟩
    | reserved op =>
      rw [hardwareStep_of_reserved hi hd, hardwareStep_of_reserved (s := s.setBlock b) hi hd]
      exact ⟨rfl, rfl⟩
  | .assertReset c :: rest =>
    rw [hardwareStep_of_assertReset hi, hardwareStep_of_assertReset (s := s.setBlock b) hi]
    exact ⟨rfl, rfl⟩
  | .takeResponse :: rest =>
    rw [hardwareStep_of_takeResponse hi, hardwareStep_of_takeResponse (s := s.setBlock b) hi]
    cases hq : s.rspQueue <;> simp [State.takeResponse, hq]
  | .readStatus :: rest =>
    rw [hardwareStep_of_readStatus hi, hardwareStep_of_readStatus (s := s.setBlock b) hi]
    simp [State.readStatus, hst]
  | [] =>
    rw [hardwareStep_of_nil hi, hardwareStep_of_nil (s := s.setBlock b) hi]
    exact ⟨rfl, rfl⟩

/-- Settles O48. -/
theorem statusShowsCntOvfIll : Obligations.StatusShowsCntOvfIll := by
  unfold Obligations.StatusShowsCntOvfIll
  refine ⟨fun b => ⟨b.status_cnt, b.status_ovf, b.status_ill⟩, by decide, fun s rest hi => ?_, fun s b hst hfin => ?_⟩
  · simp only [step, hi]; rfl
  · exact hardwareStep_setBlock_ports hst hfin

/-! ### The access table (R19) -/

/-- A write that completes no word leaves ACC, LEN and OVF as they are. -/
theorem Block.perform_of_short {b : Block} {i : Instr} (hw : isWrite i = true)
    (h : b.tail.length + (carried i).length < 4) :
    (b.perform i).acc = b.acc ∧ (b.perform i).len = b.len ∧ (b.perform i).ovf = b.ovf := by
  rw [b.perform_of_isWrite hw, b.absorb_of_short _ h]
  exact ⟨rfl, rfl, rfl⟩

/-- A write never clears OVF. -/
theorem Block.perform_ovf_of_isWrite {b : Block} {i : Instr} (hw : isWrite i = true) (h : b.ovf = true) :
    (b.perform i).ovf = true := by
  rw [b.perform_ovf, if_pos hw, h, Bool.true_or]

theorem exec_wr0_of_blockOk {s : State} (h : blockOk s.block = true) : exec .wr0 s = .next s := by
  obtain ⟨htail, hcnt, -⟩ := (blockOk_iff _).1 h
  have hw : isWrite .wr0 = true := rfl
  rw [exec_of_isWrite hw, show carried .wr0 = [] from rfl, Block.absorb_nil _ htail hcnt, State.setBlock_self]

/-- What a write leaves of each item is a function of TAIL and of that item; for OVF, of LEN too. -/
theorem Block.absorb_congr {b c : Block} (X : List Byte) (h : b.tail = c.tail) :
    (b.absorb X).tail = (c.absorb X).tail ∧ (b.absorb X).cnt = (c.absorb X).cnt ∧
    (b.acc = c.acc → (b.absorb X).acc = (c.absorb X).acc) ∧
    (b.len = c.len → (b.absorb X).len = (c.absorb X).len) ∧
    (b.len = c.len → b.ovf = c.ovf → (b.absorb X).ovf = (c.absorb X).ovf) := by
  have htail : (b.absorb X).tail = (c.absorb X).tail := by
    rw [b.absorb_eq, c.absorb_eq, h]; split <;> rfl
  refine ⟨htail, ?_, fun ha => ?_, fun hl => ?_, fun hl ho => ?_⟩
  · rw [b.absorb_cnt, c.absorb_cnt, htail]
  · rw [b.absorb_acc, c.absorb_acc, h, ha]
  · rw [b.absorb_len, c.absorb_len, h, hl]
  · rw [b.absorb_ovf, c.absorb_ovf, h, hl, ho]

/-- FIN reads ACC, LEN, TAIL and OVF (R85). -/
theorem State.finish_congr {s u : State} (hacc : s.block.acc = u.block.acc) (hlen : s.block.len = u.block.len)
    (htail : s.block.tail = u.block.tail) (hs : s.block.ovf = false) (hu : u.block.ovf = false) :
    ∃ v, s.finish.rspQueue = s.rspQueue ++ [v] ∧ u.finish.rspQueue = u.rspQueue ++ [v] := by
  have hdig : s.block.digest = u.block.digest := by simp only [Block.digest, hacc, hlen, htail]
  rw [s.finish_of_defined hs, u.finish_of_defined hu, hdig]
  exact ⟨_, rfl, rfl⟩

/-- Settles O49: what each command writes (`exec_frame` and the fields of `Block.perform`), a reserved word, reset, and
what each command reads. -/
theorem accessTable : Obligations.AccessTable := by
  unfold Obligations.AccessTable
  refine ⟨fun i s => ?_, fun s w rest hi hw => ?_, fun s c rest hi => ?_, fun i s u hw htail => ?_,
    fun seed s u => ⟨_, _, rfl, rfl, rfl⟩, fun s u hseed => ⟨_, _, rfl, rfl, ?_⟩, fun s u hacc hlen htail hs hu => ?_⟩
  · obtain ⟨t, ht, hb, hin, hobs, hq, hfin⟩ := exec_frame i s
    refine ⟨t, ht, ?_, hin, hobs, fun h => ?_, hq, fun h => ⟨?_, hfin h⟩, fun hw h => ?_, fun hw h => ?_, fun h hok => ?_⟩
    · rw [hb, Block.perform_ill]
    · rw [hb, Block.perform_seed _ _ h]
    · rw [hb, h, Block.perform_fin]
    · rw [hb]; exact Block.perform_of_short hw h
    · rw [hb]; exact Block.perform_ovf_of_isWrite hw h
    · subst h
      rw [exec_wr0_of_blockOk hok] at ht
      cases ht
      rfl
  · obtain ⟨op, hd⟩ := decode_of_not_wellFormed hw
    rw [hardwareStep_of_reserved hi hd]
    exact ⟨rfl, rfl, rfl, rfl⟩
  · rw [hardwareStep_of_assertReset hi]
    exact ⟨rfl, rfl⟩
  · exact ⟨_, _, exec_of_isWrite hw s, exec_of_isWrite hw u, Block.absorb_congr (carried i) htail⟩
  · simp only [State.begin, State.setBlock_block, Block.restart, hseed]
  · obtain ⟨v, hv⟩ := State.finish_congr hacc hlen htail hs hu
    exact ⟨_, _, v, exec_fin s, exec_fin u, hv⟩

/-! ### Reset (R23) -/

/-- Settles O26: the reset state is the rule's table, a fixed state, so each part is an evaluation. -/
theorem resetIsFreshZero : Obligations.ResetIsFreshZero := by
  unfold Obligations.ResetIsFreshZero
  exact ⟨rfl, by decide, ⟨rfl, rfl, rfl, rfl, rfl, rfl⟩, rfl⟩

/-- Settles O57. -/
theorem resetMeetsTheInvariants : Obligations.ResetMeetsTheInvariants := by
  unfold Obligations.ResetMeetsTheInvariants
  exact ⟨blockOk_reset, holds_reset, rfl⟩

end Sys2Proof.Machine

/-! PROOFS of the statements about the stream and the order of commands (spec/20_memory.md): a step by the host's next
move; the words of a stream by offset; the lanes of a write, and consecutive writes that fit in one beat. -/

namespace Sys2Proof

/-! ### The bytes of a command word (R34, R47) -/

/-- A number of the opcode table that names a command is that command's word. -/
theorem decode_of_decodeTableWord {n w : Nat} {i : Instr} (h : decodeTableWord n w = some i) :
    decode (BitVec.ofNat 36 w) = .command i := by
  unfold decodeTableWord at h
  split at h
  · cases hd : decode (BitVec.ofNat 36 w) with
    | command j => rw [hd] at h; cases h; rfl
    | reserved op => rw [hd] at h; cases h
  · cases h

theorem decode_of_opOf_wr4 {w : CmdWord} (h : opOf w = 0b0100) :
    decode w = .command (.wr4 (lane 0 (dataOf w)) (lane 1 (dataOf w)) (lane 2 (dataOf w)) (lane 3 (dataOf w))) := by
  simp [decode, h]

theorem beat_length (n : Nat) (d : Word) : (beat n d).length = n := by
  simp [beat]

/-- A lane of the data field is eight bits of the word. -/
theorem lane_dataOf {k : Nat} (hk : k < 4) (w : CmdWord) : lane k (dataOf w) = w.extractLsb' (8 * k) 8 := by
  apply BitVec.eq_of_getLsbD_eq
  intro i hi
  have : 8 * k + i < 32 := by omega
  simp [lane, dataOf, this]

end Sys2Proof

namespace Sys2Proof.Machine

open Sys2Proof.Safety

/-- A write carries the beat its opcode counts (R47). -/
theorem carried_of_decode {w : CmdWord} {i : Instr} (h : decode w = .command i) (hw : isWrite i = true) :
    carried i = beat (opOf w).toNat (dataOf w) := by
  rw [← opcode_eq_of_decode h]
  unfold decode at h
  split at h <;> cases h
  case h_1 | h_2 | h_3 | h_4 | h_5 => rfl
  case h_6 | h_7 | h_8 => cases hw

/-- The same, with the lanes read off the command word (R34). -/
theorem carried_eq_extractLsb'_of_decode {w : CmdWord} {i : Instr} (h : decode w = .command i)
    (hw : isWrite i = true) :
    carried i = (List.range (opOf w).toNat).map fun k => w.extractLsb' (8 * k) 8 := by
  have hbeat := carried_of_decode h hw
  have hn : (opOf w).toNat ≤ 4 := by
    rw [← beat_length (opOf w).toNat (dataOf w), ← hbeat]
    exact carried_length_le i
  rw [hbeat]
  refine List.map_congr_left fun k hk => lane_dataOf ?_ w
  exact Nat.lt_of_lt_of_le (List.mem_range.1 hk) hn

/-! ### A step by the host's next move -/

theorem acceptCommand_of_decode {w : CmdWord} {i : Instr} (h : decode w = .command i) (s : State) :
    acceptCommand w s = exec i s := by
  simp only [acceptCommand, h]

theorem step_of_nil {s : State} (hi : s.inputs = []) : step s = .next s := by
  simp only [step, hi]

theorem step_of_cons {s : State} {m : HostMove} {rest : List HostMove} (hi : s.inputs = m :: rest) :
    step s = hostMove m (s.setInputs rest) := by
  simp only [step, hi]

/-- The presented command is performed (R38, R45). -/
theorem step_of_command {s : State} {w : CmdWord} {rest : List HostMove} {i : Instr}
    (hi : s.inputs = .present w :: rest) (hd : decode w = .command i) : step s = exec i (s.setInputs rest) :=
  (step_of_cons hi).trans (acceptCommand_of_decode hd _)

theorem State.takeResponse_draws (s : State) : s.takeResponse.draws = s.draws := by
  unfold State.takeResponse
  split <;> rfl

theorem State.takeResponse_inputs (s : State) : s.takeResponse.inputs = s.inputs := by
  unfold State.takeResponse
  split <;> rfl

/-- Settles O9: `step_of_command`, for a table word on the state with that word in front of the host's moves. -/
theorem stepPerformsThePresentedCommand : Obligations.StepPerformsThePresentedCommand := by
  unfold Obligations.StepPerformsThePresentedCommand
  refine ⟨fun s w rest i => step_of_command, fun s => step_of_nil, fun s n w i h => ?_⟩
  exact step_of_command (s := s.withFetchWord n w) rfl (decode_of_decodeTableWord h)

/-- Settles O56: what is left is taking a response, reading STATUS, and no move at all. -/
theorem onlyCommandsAndResetChangeTheBlock : Obligations.OnlyCommandsAndResetChangeTheBlock := by
  unfold Obligations.OnlyCommandsAndResetChangeTheBlock
  intro s hpresent hreset
  match hi : s.inputs with
  | [] => exact ⟨s, step_of_nil hi, rfl, rfl, hi⟩
  | .present w :: rest => exact absurd hi (hpresent w rest)
  | .assertReset c :: rest => exact absurd hi (hreset c rest)
  | .readStatus :: rest => exact ⟨_, step_of_cons hi, rfl, rfl, rfl⟩
  | .takeResponse :: rest =>
    exact ⟨_, step_of_cons hi, State.takeResponse_block _, State.takeResponse_draws _, State.takeResponse_inputs _⟩

/-! ### The words of a stream by offset (R32) -/

theorem oldestWord_drop (B : List Byte) (n : Nat) : oldestWord (B.drop n) =
    le32 (B.getD n 0) (B.getD (n + 1) 0) (B.getD (n + 2) 0) (B.getD (n + 3) 0) := by
  simp [oldestWord, List.getD_eq_getElem?_getD]

/-- Word `j` is made of the four bytes from offset `4 * j` on. -/
theorem wholeWords_getElem? {B : List Byte} {j : Nat} (hj : j < B.length / 4) :
    (wholeWords B)[j]? = some (oldestWord (B.drop (4 * j))) := by
  fun_induction wholeWords B generalizing j with
  | case1 a b c d rest ih =>
    cases j with
    | zero => rfl
    | succ j => exact ih (by simp only [List.length_cons] at hj; omega)
  | case2 T h =>
    have hT := length_lt_four_of_no_word h
    omega

/-- Settles O37. -/
theorem wordsOfTheStreamByOffset : Obligations.WordsOfTheStreamByOffset := by
  unfold Obligations.WordsOfTheStreamByOffset
  refine fun B => ⟨wholeWords_length B, fun j hj => ?_, partialWord_eq_drop B, partialWord_length B⟩
  rw [wholeWords_getElem? hj, oldestWord_drop]

/-! ### Consecutive writes that fit in one beat (R34) -/

/-- Bytes that only extend the tail may as well come with the next beat. -/
theorem Block.setTail_append_absorb (b : Block) (X Y : List Byte) :
    (b.setTail (b.tail ++ X)).absorb Y = b.absorb (X ++ Y) := by
  rw [Block.absorb_eq, b.absorb_eq]
  simp only [Block.setTail_tail, List.length_append, List.append_assoc, Nat.add_assoc]
  split <;> rfl

/-- Two beats that together are a beat are one: at most one word is completed, by the first or by the second. -/
theorem Block.absorb_absorb {b : Block} {X Y : List Byte} (htail : b.tail.length ≤ 3)
    (hXY : X.length + Y.length ≤ 4) : (b.absorb X).absorb Y = b.absorb (X ++ Y) := by
  rcases b.absorb_cases X with ⟨-, h⟩ | ⟨s0, s1, s2, s3, rest, hS, h⟩
  · rw [h, b.setTail_append_absorb]
  · have hrest : rest.length + Y.length < 4 := by
      have hlen := congrArg List.length hS
      simp only [List.length_append, List.length_cons] at hlen
      omega
    have hSY : b.tail ++ (X ++ Y) = s0 :: s1 :: s2 :: s3 :: (rest ++ Y) := by
      rw [← List.append_assoc, hS]; rfl
    rw [h, Block.absorb_of_short _ _ hrest, b.absorb_of_word _ hSY]
    rfl

/-- Writes that together carry no more than a beat do what one write of all their bytes does. -/
theorem execAll_writes_of_beat {is : List Instr} {s : State} (hok : blockOk s.block = true)
    (hw : ∀ i ∈ is, isWrite i = true) (hlen : (is.flatMap carried).length ≤ 4) :
    execAll is s = .next (s.setBlock (s.block.absorb (is.flatMap carried))) := by
  induction is generalizing s with
  | nil =>
    obtain ⟨htail, hcnt, -⟩ := (blockOk_iff _).1 hok
    simp only [execAll, List.flatMap_nil, Block.absorb_nil _ htail hcnt, State.setBlock_self]
  | cons i is ih =>
    obtain ⟨htail, -, -⟩ := (blockOk_iff _).1 hok
    rw [List.flatMap_cons, List.length_append] at hlen
    have hi := exec_of_isWrite (hw i List.mem_cons_self) s
    have hrest := ih (s := s.setBlock (s.block.absorb (carried i))) (blockOk_absorb hok (carried_length_le i))
      (fun j hj => hw j (List.mem_cons_of_mem _ hj)) (by omega)
    rw [State.setBlock_block, State.setBlock_setBlock, Block.absorb_absorb htail hlen] at hrest
    simpa only [execAll, hi, List.flatMap_cons] using hrest

/-- With nothing pending, a WR4 folds the word of its lanes, which is the data field (R80). -/
theorem exec_wr4_of_empty_tail {s : State} (d : Word) (h : s.block.tail = []) :
    exec (.wr4 (lane 0 d) (lane 1 d) (lane 2 d) (lane 3 d)) s = .next (s.setBlock ((s.block.foldWord d).setTail [])) := by
  have hlanes : le32 (lane 0 d) (lane 1 d) (lane 2 d) (lane 3 d) = d := lanes_lane d
  have hS : s.block.tail ++ [lane 0 d, lane 1 d, lane 2 d, lane 3 d] = [lane 0 d, lane 1 d, lane 2 d, lane 3 d] := by
    rw [h]; rfl
  have hw : isWrite (.wr4 (lane 0 d) (lane 1 d) (lane 2 d) (lane 3 d)) = true := rfl
  rw [exec_of_isWrite hw, carried, Block.absorb_of_word _ _ hS, hlanes]

/-- Settles O35: the carried bytes are the lanes; the lanes make the field again; a WR4 on an empty tail folds it; and
the three ways of writing four bytes are each one Absorb of the four. -/
theorem laneOrderIsStreamOrder : Obligations.LaneOrderIsStreamOrder := by
  unfold Obligations.LaneOrderIsStreamOrder
  refine ⟨fun w i => carried_eq_extractLsb'_of_decode, lanes_lane, fun s w hop htail => ?_, fun s a b c d hok => ?_⟩
  · exact ⟨_, (acceptCommand_of_decode (decode_of_opOf_wr4 hop) s).trans (exec_wr4_of_empty_tail _ htail), rfl, rfl⟩
  · refine ⟨s.setBlock (s.block.absorb [a, b, c, d]), ?_, ?_, ?_⟩
    · exact execAll_writes_of_beat (is := [.wr4 a b c d]) hok (by simp [isWrite]) (by simp [carried])
    · exact execAll_writes_of_beat (is := [.wr1 a, .wr1 b, .wr1 c, .wr1 d]) hok (by simp [isWrite]) (by simp [carried])
    · exact execAll_writes_of_beat (is := [.wr2 a b, .wr2 c d]) hok (by simp [isWrite]) (by simp [carried])

end Sys2Proof.Machine

/-! PROOFS of the statements about the encoding and the ports (spec/30_encoding.md): a command word by its two fields;
decoding against assembling; what a host that keeps its duty meets, and what it gets back; `WRITE X`. -/

namespace Sys2Proof

/-! ### A command word by its two fields (R46) -/

theorem opOf_and (w m : CmdWord) : opOf (w &&& m) = opOf w &&& opOf m := BitVec.extractLsb'_and

theorem dataOf_and (w m : CmdWord) : dataOf (w &&& m) = dataOf w &&& dataOf m := BitVec.extractLsb'_and

theorem toNat_eq_opOf_dataOf (w : CmdWord) : w.toNat = (opOf w).toNat * 2 ^ 32 + (dataOf w).toNat := by
  simp only [opOf, dataOf, BitVec.extractLsb'_toNat, Nat.shiftRight_eq_div_pow]
  omega

theorem commandWord_toNat (op : Opcode) (d : Word) : (commandWord op d).toNat = op.toNat * 2 ^ 32 + d.toNat := by
  simpa using toNat_eq_opOf_dataOf (commandWord op d)

theorem commandWord_zero_inj {op op' : Opcode} : commandWord op 0 = commandWord op' 0 ↔ op = op' :=
  ⟨fun h => by simpa using congrArg opOf h, fun h => h ▸ rfl⟩

/-! ### A data field by its lanes (R34) -/

theorem toNat_eq_lane (d : Word) : d.toNat =
    (lane 3 d).toNat * 2 ^ 24 + (lane 2 d).toNat * 2 ^ 16 + (lane 1 d).toNat * 2 ^ 8 + (lane 0 d).toNat := by
  simp only [lane, BitVec.extractLsb'_toNat, Nat.shiftRight_eq_div_pow]
  omega

theorem lanes_toNat (a b c d : Byte) :
    (lanes a b c d).toNat = d.toNat * 2 ^ 24 + c.toNat * 2 ^ 16 + b.toNat * 2 ^ 8 + a.toNat := by
  simpa using toNat_eq_lane (lanes a b c d)

theorem lane_and (k : Nat) (d m : Word) : lane k (d &&& m) = lane k d &&& lane k m := BitVec.extractLsb'_and

/-- A mask works lane by lane. -/
theorem and_eq_lanes (d m : Word) : d &&& m =
    lanes (lane 0 d &&& lane 0 m) (lane 1 d &&& lane 1 m) (lane 2 d &&& lane 2 m) (lane 3 d &&& lane 3 m) := by
  simp only [← lane_and, lanes_lane]

theorem byte_and_allOnes (b : Byte) : b &&& 255#8 = b := BitVec.and_allOnes

theorem lanes_of_lane_zero (d : Word) : lanes (lane 0 d) 0 0 0 = d &&& 0x000000FF := by
  rw [and_eq_lanes]
  simp [lane, byte_and_allOnes]

theorem lanes_of_lane_zero_one (d : Word) : lanes (lane 0 d) (lane 1 d) 0 0 = d &&& 0x0000FFFF := by
  rw [and_eq_lanes]
  simp [lane, byte_and_allOnes]

theorem lanes_of_lane_zero_one_two (d : Word) : lanes (lane 0 d) (lane 1 d) (lane 2 d) 0 = d &&& 0x00FFFFFF := by
  rw [and_eq_lanes]
  simp [lane, byte_and_allOnes]

/-! ### Decoding by the opcode (R47 to R52) -/

section DecodeOfOpcode
variable {w : CmdWord}

theorem decode_of_opOf_wr0 (h : opOf w = 0b0000) : decode w = .command .wr0 := by
  simp [decode, h]

theorem decode_of_opOf_wr1 (h : opOf w = 0b0001) : decode w = .command (.wr1 (w.extractLsb' 0 8)) := by
  simp [decode, h, lane_dataOf]

theorem decode_of_opOf_wr2 (h : opOf w = 0b0010) :
    decode w = .command (.wr2 (w.extractLsb' 0 8) (w.extractLsb' 8 8)) := by
  simp [decode, h, lane_dataOf]

theorem decode_of_opOf_wr3 (h : opOf w = 0b0011) :
    decode w = .command (.wr3 (w.extractLsb' 0 8) (w.extractLsb' 8 8) (w.extractLsb' 16 8)) := by
  simp [decode, h, lane_dataOf]

theorem decode_of_opOf_wr4_extractLsb' (h : opOf w = 0b0100) : decode w = .command
    (.wr4 (w.extractLsb' 0 8) (w.extractLsb' 8 8) (w.extractLsb' 16 8) (w.extractLsb' 24 8)) := by
  simp [decode, h, lane_dataOf]

theorem decode_of_opOf_start (h : opOf w = 0b1001) : decode w = .command .start := by
  simp [decode, h]

theorem decode_of_opOf_fin (h : opOf w = 0b1010) : decode w = .command .fin := by
  simp [decode, h]

theorem op_eq_of_decode_reserved {op : Opcode} (h : decode w = .reserved op) : op = opOf w := by
  unfold decode at h
  split at h <;> cases h
  rfl

theorem opOf_mem_reservedOpcodes_of_decode {op : Opcode} (h : decode w = .reserved op) : opOf w ∈ reservedOpcodes :=
  List.contains_iff_mem.1 (reservedOpcodes_contains_of_decode h)

/-- The eight reserved opcodes decode to *reserved* (R51, R52). -/
theorem decode_of_reserved (h : opOf w ∈ reservedOpcodes) : decode w = .reserved (opOf w) := by
  cases hd : decode w with
  | reserved op => rw [op_eq_of_decode_reserved hd]
  | command i =>
    have hnot := reservedOpcodes_not_contains_of_decode hd
    rw [List.contains_iff_mem.2 h] at hnot
    cases hnot

end DecodeOfOpcode

/-- The opcodes of the eight rows of R48. -/
theorem Instr.opcode_mem (i : Instr) :
    i.opcode ∈ ([0b0000, 0b0001, 0b0010, 0b0011, 0b0100, 0b1000, 0b1001, 0b1010] : List Opcode) := by
  cases i <;> simp [Instr.opcode]

/-- Settles O5. -/
theorem decoderIsTotalByOpcode : Obligations.DecoderIsTotalByOpcode := by
  unfold Obligations.DecoderIsTotalByOpcode
  intro w
  cases hd : decode w with
  | command i =>
    have hop := opcode_eq_of_decode hd
    exact .inl ⟨hop ▸ i.opcode_mem, i, rfl, hop⟩
  | reserved op =>
    rw [op_eq_of_decode_reserved hd]
    exact .inr ⟨opOf_mem_reservedOpcodes_of_decode hd, rfl⟩

/-! ### Decoding against assembling (R49, R50, R54) -/

/-- Decoding reads the two fields, and the lanes of an assembled data field are the command's bytes. -/
theorem decode_encode (i : Instr) : decode (encode i) = .command i := by
  cases i with
  | wr0 | start | fin => rfl
  | wr1 | wr2 | wr3 | wr4 | init => simp [decode, encode, Instr.opcode, Instr.data]

/-- Settles O2. -/
theorem decodeOfEncodeIsTheCommand : Obligations.DecodeOfEncodeIsTheCommand := decode_encode

/-- The opcode field always takes part. -/
theorem opOf_readMask (op : Opcode) : opOf (readMask op) = BitVec.allOnes 4 := by
  revert op
  decide

theorem and_readMask_eq_commandWord (w : CmdWord) :
    w &&& readMask (opOf w) = commandWord (opOf w) (dataOf w &&& dataOf (readMask (opOf w))) := by
  rw [← commandWord_opOf_dataOf (w &&& _), opOf_and, dataOf_and, opOf_readMask, BitVec.and_allOnes]

/-- The bits of the data field that the pattern of R49 does not mark `x`. -/
def Instr.operandMask : Instr → Word
  | .wr0 | .start | .fin => 0x00000000
  | .wr1 _ => 0x000000FF
  | .wr2 _ _ => 0x0000FFFF
  | .wr3 _ _ _ => 0x00FFFFFF
  | .wr4 _ _ _ _ | .init _ => 0xFFFFFFFF

theorem dataOf_readMask_opcode (i : Instr) : dataOf (readMask i.opcode) = i.operandMask := by
  cases i <;> simp only [Instr.opcode, Instr.operandMask] <;> decide

/-- The canonical data field of a decoded command: the field with the bits cleared that the opcode ignores. -/
theorem data_of_decode {w : CmdWord} {i : Instr} (h : decode w = .command i) :
    i.data = dataOf w &&& i.operandMask := by
  unfold decode at h
  split at h <;> cases h
  case h_1 | h_7 | h_8 => exact BitVec.and_zero.symm
  case h_2 => exact lanes_of_lane_zero _
  case h_3 => exact lanes_of_lane_zero_one _
  case h_4 => exact lanes_of_lane_zero_one_two _
  case h_5 => exact (lanes_lane _).trans BitVec.and_allOnes.symm
  case h_6 => exact BitVec.and_allOnes.symm

theorem encode_of_decode {w : CmdWord} {i : Instr} (h : decode w = .command i) :
    encode i = w &&& readMask (opOf w) := by
  rw [and_readMask_eq_commandWord, ← opcode_eq_of_decode h, dataOf_readMask_opcode, ← data_of_decode h, encode]

/-- The assembled word has every ignored bit 0 (R50). -/
theorem encode_and_readMask (i : Instr) : encode i &&& readMask (opOf (encode i)) = encode i :=
  (encode_of_decode (decode_encode i)).symm

theorem canonical_encode (i : Instr) : (encode i).canonical = true :=
  beq_iff_eq.2 (encode_and_readMask i)

/-- Settles O3. -/
theorem encodeOfDecodeClearsIgnoredBits : Obligations.EncodeOfDecodeClearsIgnoredBits := by
  unfold Obligations.EncodeOfDecodeClearsIgnoredBits
  exact fun w i h => ⟨encode_of_decode h, canonical_encode i⟩

/-- Clearing the ignored bits leaves the decoding: a command's word becomes its assembled one, and of a reserved word
the opcode decides. -/
theorem decode_and_readMask (w : CmdWord) : decode (w &&& readMask (opOf w)) = decode w := by
  cases hd : decode w with
  | command i => rw [← encode_of_decode hd, decode_encode]
  | reserved op =>
    have hop : opOf (w &&& readMask (opOf w)) = opOf w := by
      rw [and_readMask_eq_commandWord, opOf_commandWord]
    have hres := opOf_mem_reservedOpcodes_of_decode hd
    rw [op_eq_of_decode_reserved hd, decode_of_reserved (by rwa [hop]), hop]

/-- `w AND mask` is the opcode field, the data field 0 (R49). -/
theorem and_mask_eq_commandWord (w : CmdWord) : w &&& 0xF00000000 = commandWord (opOf w) 0 := by
  have hop : opOf 0xF00000000 = BitVec.allOnes 4 := by decide
  have hdata : dataOf 0xF00000000 = 0 := by decide
  rw [← commandWord_opOf_dataOf (w &&& _), opOf_and, dataOf_and, hop, hdata, BitVec.and_allOnes]
  exact congrArg _ BitVec.and_zero

theorem commandWord_opcode (i : Instr) : commandWord i.opcode 0 = Laws.CanonicalWord.matchOf i := by
  cases i <;> simp only [Instr.opcode, Laws.CanonicalWord.matchOf] <;> decide

/-- The match value decides the opcode (R49), and the opcode the command. -/
theorem and_mask_eq_iff_decode {w : CmdWord} (i : Instr) (h : opOf w = i.opcode → decode w = .command i) :
    w &&& 0xF00000000 = Laws.CanonicalWord.matchOf i ↔ decode w = .command i := by
  rw [and_mask_eq_commandWord, ← commandWord_opcode, commandWord_zero_inj]
  exact ⟨h, fun hd => (opcode_eq_of_decode hd).symm⟩

/-- Settles O4. -/
theorem matchAndMaskDecideTheCommand : Obligations.MatchAndMaskDecideTheCommand := by
  unfold Obligations.MatchAndMaskDecideTheCommand
  exact fun w => ⟨and_mask_eq_iff_decode .wr0 decode_of_opOf_wr0, and_mask_eq_iff_decode (.wr1 _) decode_of_opOf_wr1,
    and_mask_eq_iff_decode (.wr2 _ _) decode_of_opOf_wr2, and_mask_eq_iff_decode (.wr3 _ _ _) decode_of_opOf_wr3,
    and_mask_eq_iff_decode (.wr4 _ _ _ _) decode_of_opOf_wr4_extractLsb',
    and_mask_eq_iff_decode (.init _) decode_of_opOf_init, and_mask_eq_iff_decode .start decode_of_opOf_start,
    and_mask_eq_iff_decode .fin decode_of_opOf_fin⟩

/-- Settles O1: nine fixed words, each an evaluation of the decoder. -/
theorem workedWordsDecode : Obligations.WorkedWordsDecode := by
  unfold Obligations.WorkedWordsDecode
  decide

/-! ### Assembled words as numbers (R54) -/

theorem encode_toNat (i : Instr) : (encode i).toNat = i.opcode.toNat * 2 ^ 32 + i.data.toNat :=
  commandWord_toNat _ _

/-- An assembled word is its match value with the data field filled in (R49, R54). -/
theorem encode_eq_or (i : Instr) : encode i = Laws.CanonicalWord.matchOf i ||| i.data.setWidth 36 := by
  rw [← commandWord_opcode]
  simp [encode, commandWord]

/-- Byte `k` of a beat is lane `k` of its data field (R34, R47). -/
theorem beat_getElem (n : Nat) (d : Word) (k : Nat) (h : k < (beat n d).length) :
    (beat n d)[k] = d.extractLsb' (8 * k) 8 := by
  simp [beat, lane]

end Sys2Proof

namespace Sys2Proof.Machine

open Sys2Proof.Safety

/-- A line that stands for one command assembles to its one word. -/
theorem AsmLine.assemble_of_command {l : AsmLine} {i : Instr} (h : l.commands = [i]) :
    l.assemble = [Laws.CanonicalWord.matchOf i ||| i.data.setWidth 36] := by
  rw [AsmLine.assemble, h, List.map_singleton, encode_eq_or]

/-- Settles O8: `encode_toNat` with the lanes as a number; a `data=` form keeps the lanes the write carries. -/
theorem assembledWordsAreThoseOfTheNotation : Obligations.AssembledWordsAreThoseOfTheNotation := by
  unfold Obligations.AssembledWordsAreThoseOfTheNotation
  refine ⟨fun seed => ?_, rfl, rfl, rfl, fun b0 => ?_, fun b0 b1 => ?_, fun b0 b1 b2 => ?_,
    fun b0 b1 b2 b3 => ?_, fun d => ?_, fun d => ?_, fun d => ?_, fun d => ?_, fun d => rfl⟩
  · simp [encode_toNat, Instr.data, Instr.opcode]
  · simp [encode_toNat, Instr.data, lanes_toNat, Instr.opcode]
  · simp [encode_toNat, Instr.data, lanes_toNat, Instr.opcode, Nat.add_assoc]
  · simp [encode_toNat, Instr.data, lanes_toNat, Instr.opcode, Nat.add_assoc]
  · simp [encode_toNat, Instr.data, lanes_toNat, Instr.opcode, Nat.add_assoc]
  · rw [AsmLine.assemble_of_command rfl]
    simp only [Instr.data, lanes_lane, Laws.CanonicalWord.matchOf]
  · rw [AsmLine.assemble_of_command rfl]
    simp only [Instr.data, lanes_of_lane_zero_one_two, Laws.CanonicalWord.matchOf]
  · rw [AsmLine.assemble_of_command rfl]
    simp only [Instr.data, lanes_of_lane_zero_one, Laws.CanonicalWord.matchOf]
  · rw [AsmLine.assemble_of_command rfl]
    simp only [Instr.data, lanes_of_lane_zero, Laws.CanonicalWord.matchOf]

/-- Settles O7: `carried_of_decode`, INIT's data field, and the lanes of a beat. -/
theorem operandsAreTheLanesOfData : Obligations.OperandsAreTheLanesOfData := by
  unfold Obligations.OperandsAreTheLanesOfData
  exact fun w i h => ⟨carried_of_decode h, fun seed hi => seed_eq_of_decode_init (hi ▸ h),
    fun n d _ => ⟨beat_length n d, beat_getElem n d⟩⟩

/-! ### What a step does with a presented word (R50, R52) -/

theorem acceptCommand_congr {w w' : CmdWord} (h : decode w = decode w') (s : State) :
    acceptCommand w s = acceptCommand w' s := by
  simp only [acceptCommand, h]

/-- Settles O6: the masked word decides the decoding, and the decoding the step. -/
theorem ignoredBitsHaveNoEffect : Obligations.IgnoredBitsHaveNoEffect := by
  unfold Obligations.IgnoredBitsHaveNoEffect
  refine ⟨fun w w' hop hmask => ?_, encode_and_readMask⟩
  have hdec : decode w = decode w' := by
    rw [← decode_and_readMask w, hmask, hop, decode_and_readMask]
  exact ⟨hdec, fun s rest => acceptCommand_congr hdec { s with inputs := rest }⟩

theorem step_of_reserved {s : State} {w : CmdWord} {rest : List HostMove} {op : Opcode}
    (hi : s.inputs = .present w :: rest) (hd : decode w = .reserved op) :
    step s = .fault (.reservedCommand (s.setInputs rest).afterReserved) := by
  rw [step_of_cons hi]
  simp only [hostMove, acceptCommand, hd, acceptReserved]

/-- Settles O10: `step_of_reserved` and where the hardware goes on; ILL after a step by O11's update. -/
theorem reservedCommandFaultsAndSetsIll : Obligations.ReservedCommandFaultsAndSetsIll := by
  unfold Obligations.ReservedCommandFaultsAndSetsIll
  refine ⟨fun s w rest hi hop => ?_, fun s hill hreset => ?_⟩
  · have hd := decode_of_reserved hop
    exact ⟨step_of_reserved hi hd, hardwareStep_of_reserved hi hd⟩
  · rw [illIsSetByReservedAndClearedByReset.1 s]
    split
    · rw [hill, Bool.true_or]
    · next c rest hi => exact absurd hi (hreset c rest)
    · exact hill

theorem wellFormed_of_decode_reserved {w : CmdWord} {op : Opcode} (h : decode w = .reserved op) :
    w.wellFormed = false :=
  congrArg not (reservedOpcodes_contains_of_decode h)

/-- Settles O13, by the host's next move. -/
theorem stepStopsOnlyOnReserved : Obligations.StepStopsOnlyOnReserved := by
  unfold Obligations.StepStopsOnlyOnReserved
  intro s
  match hi : s.inputs with
  | [] => exact .inl ⟨_, step_of_nil hi⟩
  | .takeResponse :: _ | .readStatus :: _ | .assertReset _ :: _ => exact .inl ⟨_, step_of_cons hi⟩
  | .present w :: rest =>
    cases hd : decode w with
    | command i =>
      obtain ⟨t, ht, -⟩ := exec_block i (s.setInputs rest)
      exact .inl ⟨t, (step_of_command hi hd).trans ht⟩
    | reserved op => exact .inr ⟨w, rest, rfl, wellFormed_of_decode_reserved hd, _, step_of_reserved hi hd⟩

/-! ### A host that keeps its duty (R111, R115) -/

theorem hostOk_iff (s : State) : hostOk s = true ↔ (∀ m ∈ s.inputs, moveOk m = true) ∧ s.block.ill = false := by
  simp [hostOk]

/-- A step that goes on takes one move off the host's list. -/
theorem inputs_of_step {s t : State} (h : step s = .next t) : t.inputs = s.inputs.drop 1 := by
  rcases step_cases h with ⟨hi, rfl⟩ | ⟨w, rest, i, hi, -, hexec⟩ | ⟨rest, hi, rfl⟩ | ⟨rest, hi, rfl⟩ | ⟨c, rest, hi, rfl⟩
  · rw [hi]; rfl
  · obtain ⟨u, hu, -, hin, -⟩ := exec_frame i (s.setInputs rest)
    rw [hexec] at hu
    cases hu
    rw [hin, hi]
    rfl
  · rw [State.takeResponse_inputs, hi]; rfl
  · rw [hi]; rfl
  · rw [hi]; rfl

/-- A step that goes on does not set ILL (R16, R52). -/
theorem ill_of_step {s t : State} (h : step s = .next t) (hill : s.block.ill = false) : t.block.ill = false := by
  rcases step_cases h with ⟨-, rfl⟩ | ⟨w, rest, i, -, -, hexec⟩ | ⟨rest, -, rfl⟩ | ⟨rest, -, rfl⟩ | ⟨c, rest, -, rfl⟩
  · exact hill
  · rw [block_of_exec hexec, Block.perform_ill]; exact hill
  · rw [State.takeResponse_block]; exact hill
  · exact hill
  · rfl

/-- The step of R111: the next move is met, and the duty stays kept. -/
theorem step_of_hostOk {s : State} (h : hostOk s = true) :
    ∃ t, step s = .next t ∧ hostOk t = true ∧ t.inputs = s.inputs.drop 1 := by
  obtain ⟨hmoves, hill⟩ := (hostOk_iff s).1 h
  rcases stepStopsOnlyOnReserved s with ⟨t, ht⟩ | ⟨w, rest, hi, hw, -⟩
  · have hin := inputs_of_step ht
    refine ⟨t, ht, (hostOk_iff t).2 ⟨fun m hm => hmoves m ?_, ill_of_step ht hill⟩, hin⟩
    rw [hin] at hm
    exact List.mem_of_mem_drop hm
  · have hok : w.wellFormed = true := hmoves (.present w) (hi ▸ List.mem_cons_self)
    rw [hw] at hok
    cases hok

/-- Settles O14, by induction on the number of steps. -/
theorem wellBehavedHostNeverStops : Obligations.WellBehavedHostNeverStops := by
  unfold Obligations.WellBehavedHostNeverStops
  intro n
  induction n with
  | zero => exact fun s h => ⟨s, rfl, h, rfl⟩
  | succ n ih =>
    intro s h
    obtain ⟨u, hu, huok, huin⟩ := step_of_hostOk h
    obtain ⟨t, ht, htok, htin⟩ := ih u huok
    refine ⟨t, (core_run_succ n hu).trans ht, htok, ?_⟩
    rw [htin, huin, List.drop_drop, Nat.add_comm]

/-! ### The response port (R45, R114) -/

/-- Settles O55, by the kinds of move with which a step goes on. -/
theorem responsesAreDeliveredInFinOrder : Obligations.ResponsesAreDeliveredInFinOrder := by
  unfold Obligations.ResponsesAreDeliveredInFinOrder
  intro s t h
  rcases step_cases h with ⟨hi, rfl⟩ | ⟨w, rest, i, hi, hd, hexec⟩ | ⟨rest, hi, rfl⟩ | ⟨rest, hi, rfl⟩ | ⟨c, rest, hi, rfl⟩
  · simp only [hi, and_self]
  · obtain ⟨u, hu, -, -, hobs, hq, hfin⟩ := exec_frame i (s.setInputs rest)
    rw [hexec] at hu
    cases hu
    simp only [hi]
    refine ⟨hobs, ?_⟩
    split
    · next hop =>
      rw [decode_of_opOf_fin hop] at hd
      cases hd
      exact hfin rfl
    · next hop =>
      refine (hq ?_).1
      rintro rfl
      exact hop (opcode_eq_of_decode hd).symm
  · simp only [hi]
    refine ⟨fun v vs hq => ?_, fun hq => ?_⟩
    · rw [(s.setInputs rest).takeResponse_of_waiting hq]
      exact ⟨rfl, rfl⟩
    · rw [(s.setInputs rest).takeResponse_of_empty hq]
      exact ⟨hq, rfl⟩
  · simp only [hi]
    exact ⟨rfl, rfl⟩
  · simp only [hi]
    exact ⟨rfl, rfl⟩

/-! ### The source's write of a slice, by whole words (R83) -/

/-- Fold one word after another, in order. -/
def Block.foldWords (b : Block) (ks : List Word) : Block := ks.foldl Block.foldWord b

/-- Put the pending bytes and the new ones in one row: its whole words are folded, its partial word is left pending. -/
def Block.takeIn (b : Block) (S : List Byte) : Block := (b.foldWords (wholeWords S)).setTail (partialWord S)

section TakeIn
variable (b : Block) (S T X Y : List Byte) (js ks : List Word)

theorem Block.foldWords_append : b.foldWords (js ++ ks) = (b.foldWords js).foldWords ks := List.foldl_append

/-- Folding neither reads nor writes the remainder buffer. -/
theorem Block.foldWords_setTail : (b.setTail T).foldWords ks = (b.foldWords ks).setTail T := by
  induction ks generalizing b with
  | nil => rfl
  | cons k ks ih => exact ih (b.foldWord k)

@[simp] theorem Block.takeIn_tail : (b.takeIn S).tail = partialWord S := rfl

theorem Block.takeIn_of_short (h : S.length < 4) : b.takeIn S = b.setTail S := by
  rw [takeIn, wholeWords_of_short h, partialWord_of_short h]
  rfl

/-- One row may be taken in piece by piece. -/
theorem Block.takeIn_append : b.takeIn (S ++ Y) = (b.takeIn S).takeIn ((b.takeIn S).tail ++ Y) := by
  rw [takeIn_tail, takeIn, takeIn, takeIn, wholeWords_append, partialWord_append, foldWords_append, foldWords_setTail,
    setTail_setTail]

theorem Block.takeIn_cons (s0 s1 s2 s3 : Byte) :
    b.takeIn (s0 :: s1 :: s2 :: s3 :: S) = (b.foldWord (le32 s0 s1 s2 s3)).takeIn S :=
  rfl

theorem Block.takeIn_setTail : (b.setTail T).takeIn S = b.takeIn S := by
  rw [takeIn, foldWords_setTail, setTail_setTail, takeIn]

variable {b X}

/-- A beat is taken in like any other piece. -/
theorem Block.absorb_eq_takeIn (hb : b.tail.length ≤ 3) (hX : X.length ≤ 4) : b.absorb X = b.takeIn (b.tail ++ X) := by
  rcases b.absorb_cases X with ⟨hs, h⟩ | ⟨s0, s1, s2, s3, rest, hS, h⟩
  · rw [h, takeIn_of_short _ _ (by simpa using hs)]
  · have hlen := congrArg List.length hS
    simp only [List.length_append, List.length_cons] at hlen
    rw [h, hS, takeIn_cons, takeIn_of_short _ _ (by omega)]

theorem Block.writeWords_eq_takeIn (h : b.tail = []) : b.writeWords X = b.takeIn X := by
  fun_induction Block.writeWords b X with
  | case1 b x0 x1 x2 x3 rest ih => exact ih h
  | case2 b T hT => rw [h, List.nil_append, takeIn_of_short _ _ (length_lt_four_of_no_word hT)]

/-- Completing the pending word first and going on with the rest (R83) takes the whole row in. -/
theorem Block.writeSlice_eq_takeIn (hb : b.tail.length ≤ 3) : b.writeSlice X = b.takeIn (b.tail ++ X) := by
  unfold Block.writeSlice
  split
  case h_4 h => rw [h, writeWords_eq_takeIn h]; rfl
  case h_5 Y _ _ h0 h1 h2 h3 =>
    refine (takeIn_of_short _ _ ?_).symm
    generalize b.tail = T at *
    match T, Y with
    | [], _ => exact (h0 rfl).elim
    | [t0], x0 :: x1 :: x2 :: rest => exact (h1 t0 x0 x1 x2 rest rfl rfl).elim
    | [t0, t1], x0 :: x1 :: rest => exact (h2 t0 t1 x0 x1 rest rfl rfl).elim
    | [t0, t1, t2], x0 :: rest => exact (h3 t0 t1 t2 x0 rest rfl rfl).elim
    | [_], [] | [_], [_] | [_], [_, _] | [_, _], [] | [_, _], [_] | [_, _, _], [] => simp
    | _ :: _ :: _ :: _ :: _, _ => simp only [List.length_cons] at hb; omega
  all_goals
    next h => rw [h, writeWords_eq_takeIn rfl, takeIn_setTail]; rfl

end TakeIn

/-- A beat in front of a slice is the front of the slice. -/
theorem Block.writeSlice_append {b : Block} {X : List Byte} (Y : List Byte) (hb : b.tail.length ≤ 3)
    (hX : X.length ≤ 4) : (b.absorb X).writeSlice Y = b.writeSlice (X ++ Y) := by
  have htail : (b.absorb X).tail.length ≤ 3 := by
    rw [Block.absorb_tail_length hb hX]
    omega
  rw [writeSlice_eq_takeIn htail, absorb_eq_takeIn hb hX, ← takeIn_append, writeSlice_eq_takeIn hb, List.append_assoc]

/-- Write commands, however they cut the bytes, do the source's write of the whole slice (R83). -/
theorem execAll_writes {is : List Instr} {s : State} (hok : blockOk s.block = true)
    (hw : ∀ i ∈ is, isWrite i = true) :
    execAll is s = .next (s.setBlock (s.block.writeSlice (is.flatMap carried))) := by
  induction is generalizing s with
  | nil =>
    obtain ⟨htail, hcnt, -⟩ := (blockOk_iff _).1 hok
    rw [List.flatMap_nil, Block.writeSlice_eq_takeIn htail, ← Block.absorb_eq_takeIn htail (by simp),
      Block.absorb_nil _ htail hcnt, State.setBlock_self]
    rfl
  | cons i is ih =>
    obtain ⟨htail, -, -⟩ := (blockOk_iff _).1 hok
    have hX := carried_length_le i
    have hi := exec_of_isWrite (hw i List.mem_cons_self) s
    have hrest := ih (s := s.setBlock (s.block.absorb (carried i))) (blockOk_absorb hok hX)
      fun j hj => hw j (List.mem_cons_of_mem _ hj)
    rw [State.setBlock_block, State.setBlock_setBlock, Block.writeSlice_append _ htail hX] at hrest
    simpa only [execAll, hi, List.flatMap_cons] using hrest

/-! ### `WRITE X` (R55) -/

theorem writeBeats_carried (X : List Byte) : (writeBeats X).flatMap carried = X := by
  fun_induction writeBeats X with
  | case1 b0 b1 b2 b3 rest ih => rw [List.flatMap_cons, ih]; rfl
  | case2 | case3 | case4 | case5 => rfl

theorem writeBeats_isWrite (X : List Byte) : ∀ i ∈ writeBeats X, isWrite i = true := by
  fun_induction writeBeats X with
  | case1 b0 b1 b2 b3 rest ih => exact List.forall_mem_cons.2 ⟨rfl, ih⟩
  | case2 | case3 | case4 | case5 => simp [isWrite]

theorem writeBeats_length (X : List Byte) : (writeBeats X).length = (X.length + 3) / 4 := by
  fun_induction writeBeats X with
  | case1 b0 b1 b2 b3 rest ih => simp only [List.length_cons, ih]; omega
  | case2 | case3 | case4 | case5 => simp

theorem writeCommands_nil : writeCommands [] = [.wr0] := rfl

theorem writeCommands_of_ne_nil {X : List Byte} (h : X ≠ []) : writeCommands X = writeBeats X := if_neg h

theorem writeCommands_carried (X : List Byte) : (writeCommands X).flatMap carried = X := by
  unfold writeCommands
  split
  · next h => exact h.symm
  · exact writeBeats_carried X

theorem writeCommands_isWrite (X : List Byte) : ∀ i ∈ writeCommands X, isWrite i = true := by
  unfold writeCommands
  split
  · simp [isWrite]
  · exact writeBeats_isWrite X

/-- No sequence of commands carries more than four bytes per command. -/
theorem flatMap_carried_length_le (is : List Instr) : (is.flatMap carried).length ≤ 4 * is.length := by
  induction is with
  | nil => simp
  | cons i is ih =>
    have hi := carried_length_le i
    rw [List.flatMap_cons, List.length_append, List.length_cons]
    omega

/-- Settles O42: the expansion is a sequence of writes that carry `X`, so it does the write of the slice `X`. -/
theorem writeExpansionWritesTheSlice : Obligations.WriteExpansionWritesTheSlice := by
  unfold Obligations.WriteExpansionWritesTheSlice
  intro s X hok
  have hexec := execAll_writes hok (writeCommands_isWrite X)
  rw [writeCommands_carried] at hexec
  have hlen : X ≠ [] → (writeCommands X).length = (X.length + 3) / 4 := fun h => by
    rw [writeCommands_of_ne_nil h, writeBeats_length]
  refine ⟨hexec, writeCommands_carried X, writeCommands_isWrite X, hlen, writeCommands_nil, fun is _ his h => ?_⟩
  have hle := flatMap_carried_length_le is
  rw [his] at hle
  rw [hlen h]
  omega

end Sys2Proof.Machine

/-! PROOFS of the statements about the arithmetic and the mixing functions (spec/40_primitives.md): each primitive
operation once, as the rule gives it and as a bijection of its operand; then the mixing functions as compositions of
them. -/

namespace Sys2Proof.Machine

open Function

/-! ### R60: products and sums -/

theorem mul32_toNat (a b : Word) : (mul32 a b).toNat = (a.toNat * b.toNat) % 2 ^ 32 := by
  simp [mul32]

theorem mul32_zero (x : Word) : mul32 x 0 = 0 := by
  simp [mul32]

theorem mul32_comm (a b : Word) : mul32 a b = mul32 b a := by
  rw [mul32, mul32, Nat.mul_comm]

theorem add32_comm (a b : Word) : add32 a b = add32 b a := by
  rw [add32, add32, Nat.add_comm]

/-- Settles O15: the narrowing of the exact product and sum is the remainder. -/
theorem arithmeticIsModulo2Pow32 : Obligations.ArithmeticIsModulo2Pow32 := by
  unfold Obligations.ArithmeticIsModulo2Pow32
  refine ⟨mul32_toNat, add32_toNat, by decide, by decide, mul32_zero, ?_⟩
  decide

/-- Adding a constant and then its complement to `2 ^ 32` gives the operand back. -/
theorem add32_add32_cancel (a c d : Word) (h : c + d = 0) : add32 (add32 a c) d = a := by
  rw [add32_eq_add, add32_eq_add, BitVec.add_assoc, h]; exact BitVec.add_zero a

theorem mul32_bijective {c d : Word} (h : c * d = 1) : Bijective fun a => mul32 a c :=
  bijective_iff_has_inverse.2 ⟨fun a => mul32 a d, fun a => mul32_mul32_cancel a c d h,
    fun a => mul32_mul32_cancel a d c (by rw [BitVec.mul_comm, h])⟩

theorem add32_bijective (c : Word) : Bijective fun a => add32 a c :=
  bijective_iff_has_inverse.2 ⟨fun a => add32 a (-c), fun a => add32_add32_cancel a c (-c) (BitVec.add_right_neg c),
    fun a => add32_add32_cancel a (-c) c (BitVec.add_left_neg c)⟩

/-! ### R61: rotation and shift -/

theorem rotl32_toNat (x : Word) (r : Nat) :
    (rotl32 x r).toNat = (x.toNat <<< r) % 2 ^ 32 ||| x.toNat >>> (32 - r) := by
  simp [rotl32]

theorem shr32_toNat (x : Word) (r : Nat) : (shr32 x r).toNat = x.toNat / 2 ^ r := by
  simp [shr32, Nat.shiftRight_eq_div_pow]

theorem getLsbD_shr32 (x : Word) (r i : Nat) : (shr32 x r).getLsbD i = x.getLsbD (r + i) :=
  BitVec.getLsbD_ushiftRight x r i

/-- Bit `i` goes to bit `(i + r) mod 32`. -/
theorem getLsbD_rotl32_add_mod {x : Word} {r i : Nat} (hr : r < 32) (hi : i < 32) :
    (rotl32 x r).getLsbD ((i + r) % 32) = x.getLsbD i := by
  rw [getLsbD_rotl32 x r _ hr (Nat.mod_lt _ (by decide))]
  split <;> congr 1 <;> omega

theorem rotl32_zero (r : Nat) : rotl32 0 r = 0 := by
  simp [rotl32]

theorem rotl32_allOnes {r : Nat} (hr : r < 32) : rotl32 (BitVec.allOnes 32) r = BitVec.allOnes 32 := by
  apply BitVec.eq_of_getLsbD_eq
  intro i hi
  rw [getLsbD_rotl32 _ r i hr hi]
  split <;> simp only [BitVec.getLsbD_allOnes, decide_eq_decide] <;> omega

/-- Settles O16, bit by bit for the rotation. -/
theorem rotateAndShiftMoveBits : Obligations.RotateAndShiftMoveBits := by
  unfold Obligations.RotateAndShiftMoveBits
  refine ⟨fun x r _ hr => ⟨rotl32_toNat x r, fun i hi => getLsbD_rotl32_add_mod hr hi, shr32_toNat x r, fun i hi => ?_,
    rotl32_zero r, rotl32_allOnes hr⟩, ?_⟩
  · rw [getLsbD_shr32]
    exact BitVec.getLsbD_of_ge x (r + i) (by omega)
  · decide

theorem rotl32_bijective {r : Nat} (h0 : 0 < r) (hr : r < 32) : Bijective fun x => rotl32 x r :=
  bijective_iff_has_inverse.2 ⟨fun x => rotl32 x (32 - r),
    fun x => rotl32_rotl32_cancel x r (32 - r) h0 (by omega) (by omega),
    fun x => rotl32_rotl32_cancel x (32 - r) r (by omega) h0 (by omega)⟩

theorem xor_involutive (c : Word) : Involutive fun x => x ^^^ c := fun x => by
  simp only [BitVec.xor_assoc, BitVec.xor_self, BitVec.xor_zero]

theorem xor_bijective (c : Word) : Bijective fun x => x ^^^ c := (xor_involutive c).bijective

/-- The top `s` bits are those of the operand, and every lower bit is found from the bit `s` places above it. -/
theorem xorShift_injective {s : Nat} (hs : 1 ≤ s) : Injective fun x => xorShift x s := by
  intro x y (h : xorShift x s = xorShift y s)
  have hbit (n i : Nat) (hn : 32 ≤ i + n) : x.getLsbD i = y.getLsbD i := by
    induction n generalizing i with
    | zero => rw [BitVec.getLsbD_of_ge x i hn, BitVec.getLsbD_of_ge y i hn]
    | succ n ih =>
      have hi := congrArg (BitVec.getLsbD · i) h
      simpa only [getLsbD_xorShift, ih (s + i) (by omega), Bool.xor_left_inj] using hi
  exact BitVec.eq_of_getLsbD_eq fun i _ => hbit 32 i (by omega)

theorem xorShift_bijective {s : Nat} (hs : 1 ≤ s) : Bijective fun x => xorShift x s :=
  (xorShift_injective hs).bijective_of_finite

/-! ### R62: words from bytes -/

theorem le32_toNat (b0 b1 b2 b3 : Byte) :
    (le32 b0 b1 b2 b3).toNat = b0.toNat + b1.toNat * 2 ^ 8 + b2.toNat * 2 ^ 16 + b3.toNat * 2 ^ 24 := by
  have h : (le32 b0 b1 b2 b3).toNat = _ := lanes_toNat b0 b1 b2 b3
  omega

/-- Missing high bytes are zero: a partial word is the whole word with zero bytes behind it. -/
theorem padword_three (b0 b1 b2 : Byte) : padword [b0, b1, b2] = le32 b0 b1 b2 0 := by
  simp [padword, le32, BitVec.shiftLeft_or_distrib, ← BitVec.shiftLeft_add]

theorem padword_two (b0 b1 : Byte) : padword [b0, b1] = le32 b0 b1 0 0 := by
  simp [padword, le32]

theorem padword_one (b0 : Byte) : padword [b0] = le32 b0 0 0 0 := by
  simp [padword, le32]

/-- Settles O17: a partial word is a whole word with zero bytes, and a whole word is the sum of its shifted bytes. -/
theorem wordsAreLittleEndian : Obligations.WordsAreLittleEndian := by
  unfold Obligations.WordsAreLittleEndian
  refine ⟨le32_toNat, rfl, fun b0 => ?_, fun b0 b1 => ?_, padword_three, ?_⟩
  · simp [padword_one, le32_toNat]
  · simp [padword_two, le32_toNat]
  · decide

/-! ### R64: Scramble -/

theorem scramble_bijective : Bijective scramble :=
  (mul32_bijective (d := 0x56ED309B) (by decide)).comp
    ((rotl32_bijective (r := 15) (by decide) (by decide)).comp (mul32_bijective (d := 0xDEE13BB1) (by decide)))

/-- The inverse of Scramble (T2). -/
theorem scramble_cancel (k : Word) : mul32 (rotl32 (mul32 (scramble k) 0x56ED309B) 17) 0xDEE13BB1 = k := by
  rw [scramble, mul32_mul32_cancel _ mixC2 _ (by decide), rotl32_rotl32_cancel _ 15 17 (by decide) (by decide) rfl,
    mul32_mul32_cancel _ mixC1 _ (by decide)]

/-- Settles O18: two multiplications by odd constants and a rotation, each with its inverse. -/
theorem scrambleIsABijection : Obligations.ScrambleIsABijection := by
  unfold Obligations.ScrambleIsABijection
  refine ⟨fun k => rfl, scramble_cancel, scramble_bijective, ?_⟩
  decide

/-! ### R65: Fold -/

/-- Fold as the rule has it, constants on the right. -/
theorem fold_eq (h k : Word) : fold h k = add32 (mul32 (rotl32 (h ^^^ scramble k) 13) foldM5) foldN := by
  rw [fold, mul32_comm, add32_comm]

theorem fold_bijective (k : Word) : Bijective fun h => fold h k := by
  simp only [fold_eq]
  exact (add32_bijective foldN).comp ((mul32_bijective (d := 0xCCCCCCCD) (by decide)).comp
    ((rotl32_bijective (r := 13) (by decide) (by decide)).comp (xor_bijective (scramble k))))

/-- The inverse of Fold that R65 gives. -/
theorem fold_cancel (h k : Word) :
    rotl32 (mul32 (add32 (fold h k) (BitVec.ofNat 32 (2 ^ 32 - 0xE6546B64))) 0xCCCCCCCD) 19 ^^^ scramble k = h := by
  rw [fold_eq, add32_add32_cancel _ foldN _ (by decide), mul32_mul32_cancel _ foldM5 _ (by decide),
    rotl32_rotl32_cancel _ 13 19 (by decide) (by decide) rfl]
  exact xor_involutive (scramble k) h

/-- Settles O19; the words 0 and 1 in either order tell that the order matters. -/
theorem foldIsABijectionAndOrdered : Obligations.FoldIsABijectionAndOrdered := by
  unfold Obligations.FoldIsABijectionAndOrdered
  refine ⟨fold_eq, fold_cancel, fold_bijective, ⟨0, 0, 1, by decide⟩, ?_⟩
  decide

/-! ### R66: Avalanche -/

theorem avalanche_bijective : Bijective avalanche :=
  (xorShift_bijective (s := 16) (by decide)).comp ((mul32_bijective (d := 0x7ED1B41D) (by decide)).comp
    ((xorShift_bijective (s := 13) (by decide)).comp ((mul32_bijective (d := 0xA5CB9243) (by decide)).comp
      (xorShift_bijective (s := 16) (by decide)))))

/-- Settles O20: three shift-and-XOR steps and two multiplications by odd constants. -/
theorem avalancheIsABijection : Obligations.AvalancheIsABijection := by
  unfold Obligations.AvalancheIsABijection
  refine ⟨fun h => rfl, avalanche_bijective, ?_⟩
  decide

/-! ### R67: Finalize -/

/-- A tail's length fits in the two low bits that a multiple of 4 leaves free. -/
theorem add32_toNat_of_tail {len : Word} {n : Nat} (hlen : len.toNat % 4 = 0) (hn : n ≤ 3) :
    (add32 len (BitVec.ofNat 32 n)).toNat = len.toNat + n := by
  rw [add32_toNat, BitVec.toNat_ofNat]
  omega

theorem add32_eq_or_of_tail {len : Word} {n : Nat} (hlen : len.toNat % 4 = 0) (hn : n ≤ 3) :
    add32 len (BitVec.ofNat 32 n) = len ||| BitVec.ofNat 32 n := by
  apply BitVec.eq_of_toNat_eq
  have hq : len.toNat = 2 ^ 2 * (len.toNat / 4) := by omega
  rw [add32_toNat_of_tail hlen hn, BitVec.toNat_or, BitVec.toNat_ofNat, Nat.mod_eq_of_lt (by omega), hq]
  exact Nat.two_pow_add_eq_or_of_lt (by omega) _

theorem finalize_nil (acc len : Word) : finalize acc len [] = avalanche (acc ^^^ len) := by
  simp [finalize, add32_eq_add]

/-- Settles O21: the tail length stands in the two bits that LEN leaves 0. -/
theorem finalizeMixesTheTotalLength : Obligations.FinalizeMixesTheTotalLength := by
  unfold Obligations.FinalizeMixesTheTotalLength
  refine ⟨fun acc len T _ => rfl, fun len T hlen hT => ⟨add32_toNat_of_tail hlen hT, add32_eq_or_of_tail hlen hT⟩,
    finalize_nil, ?_⟩
  decide

/-! ### R68: the digest as a function of the seed -/

/-- Folding in any list of words: one bijection per word. -/
theorem foldl_fold_bijective (ks : List Word) : Bijective fun s => ks.foldl fold s := by
  induction ks with
  | nil => exact bijective_id
  | cons k ks ih => exact ih.comp (fold_bijective k)

theorem foldStream_bijective (B : List Byte) : Bijective fun s => foldStream s B := foldl_fold_bijective (wholeWords B)

/-- Settles O22: after the words, two XORs with values that do not depend on the seed, and Avalanche. -/
theorem digestIsABijectionOfTheSeed : Obligations.DigestIsABijectionOfTheSeed := by
  unfold Obligations.DigestIsABijectionOfTheSeed
  intro B
  exact avalanche_bijective.comp ((xor_bijective (BitVec.ofNat 32 B.length)).comp
    ((xor_bijective (scramble (padword (partialWord B)))).comp (foldStream_bijective B)))

end Sys2Proof.Machine

/-! PROOFS of the statements about the control commands (spec/41_control.md): the digest of the stream a block holds;
writes and a FIN on a block that holds a stream; INIT and START in front of them. -/

namespace Sys2Proof.Machine

/-! ### The digest of a held stream (R85, R87) -/

/-- The folded length and the pending bytes together are the length of the stream, modulo 2^32. -/
theorem Block.Holds.add32_len_tail {b : Block} {B : List Byte} (h : b.Holds B) :
    add32 b.len (BitVec.ofNat 32 b.tail.length) = BitVec.ofNat 32 B.length := by
  apply BitVec.eq_of_toNat_eq
  rw [add32_toNat, h.len_toNat, h.tail_length, BitVec.toNat_ofNat, BitVec.toNat_ofNat]
  omega

theorem Block.Holds.digest_eq {b : Block} {B : List Byte} (h : b.Holds B) : b.digest = Machine.digest b.seed B := by
  have hlen := h.add32_len_tail
  obtain ⟨hacc, -, htail, -, -⟩ := h
  rw [Block.digest, finalize, hlen, hacc, htail, Machine.digest]

theorem Block.Holds.ovf_eq_false {b : Block} {B : List Byte} (h : b.Holds B) (hlt : B.length < 2 ^ 32) :
    b.ovf = false := by
  rw [h.ovf_eq, decide_eq_false (Nat.not_le.2 hlt)]

/-- FIN on a block that holds a stream shorter than 2^32 bytes. -/
theorem State.finish_of_holds {s : State} {B : List Byte} (h : s.block.Holds B) (hlt : B.length < 2 ^ 32) :
    s.finish = s.respond ((digest s.block.seed B).setWidth 64) := by
  rw [s.finish_of_defined (h.ovf_eq_false hlt), h.digest_eq]

/-- The empty stream has neither a word nor a partial word (R67). -/
theorem digest_nil (s : Word) : digest s [] = avalanche s := by
  simp [digest, foldStream, wholeWords, partialWord]

/-! ### A computation: begin, write, finish (R55, R72) -/

theorem execAll_append {is : List Instr} {s t : State} (js : List Instr) (h : execAll is s = .next t) :
    execAll (is ++ js) s = execAll js t := by
  induction is generalizing s with
  | nil => cases h; rfl
  | cons i is ih =>
    obtain ⟨u, hu, -⟩ := exec_block i s
    simp only [execAll, List.cons_append, hu] at h ⊢
    exact ih h

/-- Writes and then a FIN respond once, with the digest of the stream held before and the bytes written. -/
theorem execAll_writes_fin {is : List Instr} {s : State} {B : List Byte} (h : s.block.Holds B)
    (hw : ∀ i ∈ is, isWrite i = true) (hlt : (B ++ is.flatMap carried).length < 2 ^ 32) :
    ∃ t, execAll (is ++ [.fin]) s = .next t ∧ t.block.seed = s.block.seed ∧ t.block.ovf = false ∧
      t.rspQueue = s.rspQueue ++ [(digest s.block.seed (B ++ is.flatMap carried)).setWidth 64] := by
  have hexec := execAll_writes (holdingAStreamImpliesTheBlockInvariant _ B h) hw
  obtain ⟨u, hu, hB, hseed⟩ := execAll_holds is h fun i hi => continuesStream_of_isWrite (hw i hi)
  have hqueue : u.rspQueue = s.rspQueue := by
    rw [hexec] at hu
    cases hu
    rfl
  refine ⟨u.finish, execAll_append [.fin] hu, ?_⟩
  rw [State.finish_of_holds hB hlt, hseed, ← hqueue]
  exact ⟨hseed, hB.ovf_eq_false hlt, rfl⟩

/-- From a fresh start the earlier state plays no part in the response (R72). -/
theorem execAll_begin_writes_fin (s : State) (seed : Word) {is : List Instr} (hw : ∀ i ∈ is, isWrite i = true)
    (hlt : (is.flatMap carried).length < 2 ^ 32) :
    ∃ t, execAll (is ++ [.fin]) (s.begin seed) = .next t ∧ t.block.seed = seed ∧ t.block.ovf = false ∧
      t.rspQueue = s.rspQueue ++ [(digest seed (is.flatMap carried)).setWidth 64] := by
  have hfin := execAll_writes_fin (s := s.begin seed) (Block.Holds.restart s.block seed) hw
  rw [List.nil_append] at hfin
  exact hfin hlt

theorem execAll_begin_writeCommands_fin (s : State) (seed : Word) {B : List Byte} (hlt : B.length < 2 ^ 32) :
    ∃ t, execAll (writeCommands B ++ [.fin]) (s.begin seed) = .next t ∧ t.block.seed = seed ∧ t.block.ovf = false ∧
      t.rspQueue = s.rspQueue ++ [(digest seed B).setWidth 64] := by
  have h := execAll_begin_writes_fin s seed (writeCommands_isWrite B)
  rw [writeCommands_carried] at h
  exact h hlt

/-- Settles O25: `HASH` and `REHASH` are one computation, begun with the operand and with the stored seed. -/
theorem hashDependsOnSeedAndBytesAlone : Obligations.HashDependsOnSeedAndBytesAlone := by
  unfold Obligations.HashDependsOnSeedAndBytesAlone
  refine ⟨fun seed s s' => ⟨_, _, rfl, rfl, rfl⟩, fun s seed B hlt => ?_, fun s B hlt => ?_⟩
  · exact execAll_begin_writeCommands_fin s seed hlt
  · exact execAll_begin_writeCommands_fin s s.block.seed hlt

/-! ### INIT and START (R70, R71) -/

/-- Settles O23: INIT's state is `State.begin`; a FIN after it is a computation without a write. -/
theorem initLoadsTheSeedAndBeginsFresh : Obligations.InitLoadsTheSeedAndBeginsFresh := by
  unfold Obligations.InitLoadsTheSeedAndBeginsFresh
  refine ⟨fun w => decode_of_opOf_init, fun s seed => rfl, fun s => rfl, fun s x y => rfl, fun s seed => ?_⟩
  obtain ⟨t, ht, -, -, hqueue⟩ := execAll_begin_writes_fin s seed (is := []) (by simp) (by simp)
  rw [List.flatMap_nil, digest_nil] at hqueue
  exact ⟨t, ht, hqueue⟩

/-- Settles O24: START's state is `State.begin` with the stored seed; the worked example is a `HASH` of one byte and
then its `REHASH`. -/
theorem startBeginsFreshWithTheStoredSeed : Obligations.StartBeginsFreshWithTheStoredSeed := by
  unfold Obligations.StartBeginsFreshWithTheStoredSeed
  refine ⟨fun w => decode_of_opOf_start, fun s => rfl, rfl, fun s b seed => ?_⟩
  have hlt : [b].length < 2 ^ 32 := by simp
  obtain ⟨-, hhash, hrehash⟩ := hashDependsOnSeedAndBytesAlone
  obtain ⟨t, ht, hseed, -, hqueue⟩ := hhash s seed [b] hlt
  obtain ⟨u, hu, -, -, hqueue'⟩ := hrehash t [b] hlt
  have hexec : execAll (hashCommands seed [b] ++ rehashCommands [b]) s = .next u := (execAll_append _ ht).trans hu
  refine ⟨u, hexec, (digest seed [b]).setWidth 64, ?_⟩
  rw [hqueue', hqueue, hseed, List.append_assoc]
  rfl

end Sys2Proof.Machine

/-! PROOFS of the statements about the write commands (spec/42_write.md): Absorb by the rule's pseudocode and each write
by the tail it meets; then the writes of a whole stream, however it is cut into beats. -/

namespace Sys2Proof.Machine

open Sys2Proof.Safety

/-! ### The stream invariant (R81) -/

/-- Settles O38: a fresh block holds the empty stream, and every write and FIN extends the stream the block holds. -/
theorem stateIsAFunctionOfTheStream : Obligations.StateIsAFunctionOfTheStream := by
  unfold Obligations.StateIsAFunctionOfTheStream
  intro s seed is hfresh _ his hlt
  obtain ⟨t, ht, hB, hseed⟩ := execAll_holds is hfresh.holds_nil his
  obtain ⟨rfl, -⟩ := hfresh
  rw [List.nil_append] at hB
  have hovf := hB.ovf_eq_false hlt
  have hcnt : t.block.cnt = BitVec.ofNat 2 ((is.flatMap carried).length % 4) :=
    BitVec.eq_of_toNat_eq (by rw [hB.cnt_toNat, BitVec.toNat_ofNat, Nat.mod_mod])
  obtain ⟨hacc, hlen, htail, -, -⟩ := hB
  rw [hseed] at hacc
  rw [partialWord_eq_drop] at htail
  exact ⟨t, ht, hacc, hlen, htail, hcnt, hovf, hseed⟩

/-! ### Cutting a stream into beats (R82, R83) -/

/-- Settles O40: either cutting does the source's write of the one slice. -/
theorem chunkingDoesNotMatter : Obligations.ChunkingDoesNotMatter := by
  unfold Obligations.ChunkingDoesNotMatter
  intro s is js hok _ his hjs hsame
  have hi := execAll_writes hok his
  have hj := execAll_writes hok hjs
  rw [← hsame] at hj
  exact ⟨_, hi, hj, fun _ => ⟨_, execAll_append [.fin] hi, execAll_append [.fin] hj⟩⟩

/-- Writing the empty slice changes nothing. -/
theorem Block.writeSlice_nil {b : Block} (h : blockOk b = true) : b.writeSlice [] = b := by
  obtain ⟨htail, hcnt, -⟩ := (blockOk_iff b).1 h
  rw [writeSlice_eq_takeIn htail, ← absorb_eq_takeIn htail (by simp), absorb_nil _ htail hcnt]

/-- Settles O41, by induction on the beats: the first one is the front of the slice. -/
theorem writeSliceIsAnyCuttingIntoBeats : Obligations.WriteSliceIsAnyCuttingIntoBeats := by
  unfold Obligations.WriteSliceIsAnyCuttingIntoBeats
  intro b cuts hok hcuts
  induction cuts generalizing b with
  | nil => exact Block.writeSlice_nil hok
  | cons X cuts ih =>
    obtain ⟨hX, hcuts⟩ := List.forall_mem_cons.1 hcuts
    have hX : X.length ≤ 4 := of_decide_eq_true hX
    obtain ⟨htail, -, -⟩ := (blockOk_iff b).1 hok
    rw [List.flatten_cons, ← Block.writeSlice_append _ htail hX]
    exact ih _ (blockOk_absorb hok hX) hcuts

/-! ### Absorb (R76) -/

/-- Settles O29: `Block.absorb_eq` with the two updates written out. -/
theorem absorbFollowsThePseudocode : Obligations.AbsorbFollowsThePseudocode := by
  unfold Obligations.AbsorbFollowsThePseudocode
  refine ⟨fun i s hw => ⟨carried_length_le i, exec_of_isWrite hw s⟩, fun b X _ _ => ?_⟩
  dsimp only
  rw [b.absorb_eq, ← List.length_append, ← List.length_drop]
  rfl

/-! ### WR0 (R75) -/

/-- Every command sequence goes on to its end (R90). -/
theorem execAll_goes_on (is : List Instr) (s : State) : ∃ t, execAll is s = .next t := by
  induction is generalizing s with
  | nil => exact ⟨s, rfl⟩
  | cons i is ih =>
    obtain ⟨u, hu, -⟩ := exec_block i s
    obtain ⟨t, ht⟩ := ih u
    exact ⟨t, by simpa only [execAll, hu] using ht⟩

/-- Settles O30: what follows a WR0 begins in the state the WR0 met. -/
theorem wr0ChangesNothing : Obligations.Wr0ChangesNothing := by
  unfold Obligations.Wr0ChangesNothing
  refine ⟨fun w => decode_of_opOf_wr0, fun s => exec_wr0_of_blockOk, fun s is hok => ?_⟩
  obtain ⟨t, ht⟩ := execAll_goes_on is s
  have hwr0 : execAll (.wr0 :: is) s = .next t := by
    simpa only [execAll, exec_wr0_of_blockOk hok] using ht
  exact ⟨t, t, ht, hwr0, rfl, fun _ => rfl⟩

/-! ### WR1 to WR4 by the tail they meet (R77 to R80) -/

section WriteByTail
variable {s : State} {T : List Byte} (i : Instr)

/-- Pending and carried bytes short of a word: the write extends the tail. -/
theorem exec_write_extends (hw : isWrite i = true) (hT : s.block.tail = T) (h : T.length + (carried i).length < 4) :
    exec i s = .next (s.setBlock (s.block.setTail (T ++ carried i))) := by
  subst hT
  rw [exec_of_isWrite hw, Block.absorb_of_short _ _ h]

/-- Pending and carried bytes that make a word: the write folds it and keeps what is left. -/
theorem exec_write_folds {s0 s1 s2 s3 : Byte} {rest : List Byte} (hw : isWrite i = true) (hT : s.block.tail = T)
    (h : T ++ carried i = s0 :: s1 :: s2 :: s3 :: rest) :
    exec i s = .next (s.setBlock ((s.block.foldWord (le32 s0 s1 s2 s3)).setTail rest)) := by
  subst hT
  rw [exec_of_isWrite hw, Block.absorb_of_word _ _ h]

end WriteByTail

/-- Settles O31: only from three pending bytes is a word completed. -/
theorem wr1ByTailCount : Obligations.Wr1ByTailCount := by
  unfold Obligations.Wr1ByTailCount
  refine ⟨fun w => decode_of_opOf_wr1, fun s b0 => ⟨?_, ?_, ?_, ?_⟩, by decide⟩
  · exact fun h => exec_write_extends (.wr1 b0) rfl h (by simp [carried])
  · exact fun t0 h => exec_write_extends (.wr1 b0) rfl h (by simp [carried])
  · exact fun t0 t1 h => exec_write_extends (.wr1 b0) rfl h (by simp [carried])
  · exact fun t0 t1 t2 h => exec_write_folds (.wr1 b0) rfl h rfl

/-- Settles O32: from two pending bytes on a word is completed. -/
theorem wr2ByTailCount : Obligations.Wr2ByTailCount := by
  unfold Obligations.Wr2ByTailCount
  refine ⟨fun w => decode_of_opOf_wr2, fun s b0 b1 => ⟨?_, ?_, ?_, ?_⟩, by decide, by decide⟩
  · exact fun h => exec_write_extends (.wr2 b0 b1) rfl h (by simp [carried])
  · exact fun t0 h => exec_write_extends (.wr2 b0 b1) rfl h (by simp [carried])
  · exact fun t0 t1 h => exec_write_folds (.wr2 b0 b1) rfl h rfl
  · exact fun t0 t1 t2 h => exec_write_folds (.wr2 b0 b1) rfl h rfl

/-- Settles O33: from one pending byte on a word is completed. -/
theorem wr3ByTailCount : Obligations.Wr3ByTailCount := by
  unfold Obligations.Wr3ByTailCount
  refine ⟨fun w => decode_of_opOf_wr3, fun s b0 b1 b2 => ⟨?_, ?_, ?_, ?_⟩, by decide⟩
  · exact fun h => exec_write_extends (.wr3 b0 b1 b2) rfl h (by simp [carried])
  · exact fun t0 h => exec_write_folds (.wr3 b0 b1 b2) rfl h rfl
  · exact fun t0 t1 h => exec_write_folds (.wr3 b0 b1 b2) rfl h rfl
  · exact fun t0 t1 t2 h => exec_write_folds (.wr3 b0 b1 b2) rfl h rfl

/-- Settles O34: four bytes complete a word whatever is pending. -/
theorem wr4ByTailCount : Obligations.Wr4ByTailCount := by
  unfold Obligations.Wr4ByTailCount
  refine ⟨fun w => decode_of_opOf_wr4_extractLsb', fun s b0 b1 b2 b3 => ⟨?_, ?_, ?_, ?_⟩, by decide, by decide⟩
  · exact fun h => exec_write_folds (.wr4 b0 b1 b2 b3) rfl h rfl
  · exact fun t0 h => exec_write_folds (.wr4 b0 b1 b2 b3) rfl h rfl
  · exact fun t0 t1 h => exec_write_folds (.wr4 b0 b1 b2 b3) rfl h rfl
  · exact fun t0 t1 t2 h => exec_write_folds (.wr4 b0 b1 b2 b3) rfl h rfl

end Sys2Proof.Machine

/-! PROOFS of the statements about the finish command (spec/43_finish.md): the digest on the response port; a command
sequence behind the responses that wait; a FIN among WR0 and in front of a sequence. -/

namespace Sys2Proof.Machine

open Sys2Proof.Safety

/-! ### FIN at any moment (R85, R87) -/

/-- A FIN after any command sequence is performed on the state the sequence leaves. -/
theorem execAll_fin_of_execAll {is : List Instr} {s t : State} (h : execAll is s = .next t) :
    execAll (is ++ [.fin]) s = .next t.finish :=
  execAll_append [.fin] h

/-- Settles O46: writes and FINs from a fresh block leave one that holds their stream, whose digest FIN gives. -/
theorem finRespondsWithTheDigestOfTheStream : Obligations.FinRespondsWithTheDigestOfTheStream := by
  unfold Obligations.FinRespondsWithTheDigestOfTheStream
  refine ⟨fun s seed is hfresh _ his hlt => ?_, fun s seed B _ hlt => ?_, fun s B => ?_, by decide, by decide⟩
  · obtain ⟨t, ht, hB, hseed⟩ := execAll_holds is hfresh.holds_nil his
    obtain ⟨rfl, -⟩ := hfresh
    rw [List.nil_append] at hB
    refine ⟨t, t.finish, ht, execAll_fin_of_execAll ht, ?_⟩
    rw [State.finish_of_holds hB hlt, hseed]
    rfl
  · obtain ⟨-, hhash, -⟩ := hashDependsOnSeedAndBytesAlone
    obtain ⟨t, ht, -, -, hqueue⟩ := hhash s seed B hlt
    exact ⟨t, ht, hqueue⟩
  · rw [digest, partialWord_eq_drop, foldStream]

/-! ### A command sequence behind the responses that wait (R45, R88) -/

/-- A FIN puts its response behind those that wait, and none of them plays a part in it. -/
theorem State.finish_setQueue (s : State) : ∃ v, s.finish.rspQueue = s.rspQueue ++ [v] ∧
    ∀ q, { s with rspQueue := q }.finish = { s.finish with rspQueue := q ++ [v] } := by
  cases h : s.block.ovf with
  | true =>
    refine ⟨Config.freeResponse s.draws, ?_, fun q => ?_⟩
    · rw [s.finish_of_overflow h]; rfl
    · rw [s.finish_of_overflow h, State.finish_of_overflow { s with rspQueue := q } h]; rfl
  | false =>
    refine ⟨s.block.digest.setWidth 64, ?_, fun q => ?_⟩
    · rw [s.finish_of_defined h]; rfl
    · rw [s.finish_of_defined h, State.finish_of_defined { s with rspQueue := q } h]; rfl

/-- A command adds the same responses behind any queue, and the queue plays no other part in what it does. -/
theorem exec_setQueue (i : Instr) (s : State) : ∃ t later, exec i s = .next t ∧ t.rspQueue = s.rspQueue ++ later ∧
    ∀ q, exec i { s with rspQueue := q } = .next { t with rspQueue := q ++ later } := by
  by_cases hi : i = .fin
  · subst hi
    obtain ⟨v, hv, hq⟩ := s.finish_setQueue
    exact ⟨s.finish, [v], exec_fin s, hv, fun q => by rw [exec_fin, hq]⟩
  · refine ⟨_, [], exec_of_ne_fin hi s, (List.append_nil _).symm, fun q => ?_⟩
    rw [exec_of_ne_fin hi, List.append_nil]
    rfl

theorem execAll_setQueue (is : List Instr) (s : State) :
    ∃ t later, execAll is s = .next t ∧ t.rspQueue = s.rspQueue ++ later ∧
      ∀ q, execAll is { s with rspQueue := q } = .next { t with rspQueue := q ++ later } := by
  induction is generalizing s with
  | nil => exact ⟨s, [], rfl, (List.append_nil _).symm, fun q => by rw [List.append_nil]; rfl⟩
  | cons i is ih =>
    obtain ⟨u, first, hu, huq, hfirst⟩ := exec_setQueue i s
    obtain ⟨t, later, ht, htq, hlater⟩ := ih u
    refine ⟨t, first ++ later, ?_, ?_, fun q => ?_⟩
    · simpa only [execAll, hu] using ht
    · rw [htq, huq, List.append_assoc]
    · simpa only [execAll, hfirst, List.append_assoc] using hlater (q ++ first)

/-! ### A FIN among WR0, and in front of a sequence (R88) -/

theorem execAll_replicate_wr0 (n : Nat) {s : State} (hok : blockOk s.block = true) :
    execAll (List.replicate n .wr0) s = .next s := by
  induction n with
  | zero => rfl
  | succ n ih => simpa only [List.replicate_succ, execAll, exec_wr0_of_blockOk hok] using ih

theorem execAll_cons_fin (is : List Instr) (s : State) : execAll (.fin :: is) s = execAll is s.finish := rfl

/-- Settles O47: a FIN leaves the block as it is, so the second one finds the same digest; and what follows a FIN is
performed as without it, behind one more response. -/
theorem finIsRepeatableAndHarmless : Obligations.FinIsRepeatableAndHarmless := by
  unfold Obligations.FinIsRepeatableAndHarmless
  refine ⟨fun s n hok hovf _ => ⟨s.block.digest.setWidth 64, ?_⟩, fun s is hovf _ => ?_⟩
  · have hfirst := s.finish_of_defined hovf
    have hsecond := State.finish_of_defined (s.respond (s.block.digest.setWidth 64)) hovf
    have hwr0 := execAll_replicate_wr0 n (s := s.respond (s.block.digest.setWidth 64)) hok
    rw [execAll_cons_fin, hfirst, execAll_fin_of_execAll hwr0, hsecond]
    simp [State.respond]
  · obtain ⟨t, later, ht, htq, hq⟩ := execAll_setQueue is s
    have hfin : execAll (.fin :: is) s =
        .next { t with rspQueue := s.rspQueue ++ ([s.block.digest.setWidth 64] ++ later) } := by
      rw [execAll_cons_fin, s.finish_of_defined hovf, ← List.append_assoc]
      exact hq _
    exact ⟨t, _, _, later, ht, htq, hfin, rfl, fun _ => rfl⟩

/-! ### One response, nothing written (R85, R86) -/

/-- The low half of a zero-extended word is the word. -/
theorem extractLsb'_low_of_setWidth (x : Word) : (x.setWidth 64).extractLsb' 0 32 = x := by
  rw [BitVec.extractLsb'_setWidth_of_le (by omega), BitVec.extractLsb'_eq_self]

/-- Its upper half is zero. -/
theorem extractLsb'_high_of_setWidth (x : Word) : (x.setWidth 64).extractLsb' 32 32 = 0 := by
  have happ : x.setWidth 64 = (0 : Word) ++ x := BitVec.setWidth_eq_append (by omega)
  rw [happ, BitVec.extractLsb'_append_eq_left]

/-- Settles O44: `State.finish_of_defined` and `State.finish_of_overflow`; a fresh block holds the empty stream. -/
theorem finRespondsWithTheDigest : Obligations.FinRespondsWithTheDigest := by
  unfold Obligations.FinRespondsWithTheDigest
  refine ⟨fun w => decode_of_opOf_fin, fun s h => ⟨s.block.digest.setWidth 64, ?_, ?_, ?_⟩,
    fun s h => ⟨Config.freeResponse s.draws, ?_⟩, fun s hfresh => ?_⟩
  · rw [exec_fin, s.finish_of_defined h]; rfl
  · exact extractLsb'_low_of_setWidth _
  · exact extractLsb'_high_of_setWidth _
  · rw [exec_fin, s.finish_of_overflow h]; rfl
  · rw [exec_fin, State.finish_of_holds hfresh.holds_nil (by simp), digest_nil]; rfl

/-- Settles O45: the response of `State.finish_of_overflow`, and the two updates it is made of. -/
theorem finUnderOverflowDrawsAFreeValue : Obligations.FinUnderOverflowDrawsAFreeValue := by
  unfold Obligations.FinUnderOverflowDrawsAFreeValue
  intro s h
  rw [exec_fin, s.finish_of_overflow h]
  exact ⟨_, rfl, rfl, rfl, rfl, rfl, rfl⟩

end Sys2Proof.Machine

/-! PROOFS of the statements about exceptions (spec/60_exceptions.md): no command fails, and a stream of 2^32 bytes or
more leaves everything but the value of FIN defined. -/

namespace Sys2Proof.Machine

/-! ### No command fails (R90) -/

/-- Settles O12: every command goes on, with the block of `Block.perform`. -/
theorem noCommandFails : Obligations.NoCommandFails := by
  unfold Obligations.NoCommandFails
  intro i s
  obtain ⟨t, ht, -⟩ := exec_block i s
  exact ⟨t, ht⟩

/-! ### The overlong stream (R92) -/

/-- Settles O39: the stream invariant has no bound on the stream's length, so it holds past the wrap of LEN; INIT and
START restart the block, with OVF clear. -/
theorem overlongStreamStaysDefined : Obligations.OverlongStreamStaysDefined := by
  unfold Obligations.OverlongStreamStaysDefined
  refine ⟨fun s seed is hfresh _ his => ?_, fun s seed => ⟨s.begin seed, s.begin s.block.seed, rfl, rfl, rfl, rfl⟩⟩
  obtain ⟨t, ht, hB, hseed⟩ := execAll_holds is hfresh.holds_nil his
  obtain ⟨rfl, -⟩ := hfresh
  rw [List.nil_append] at hB
  have hlen := hB.len_toNat
  have hcnt := hB.cnt_toNat
  have hovf := hB.ovf_eq
  obtain ⟨hacc, -, htail, -, -⟩ := hB
  rw [hseed] at hacc
  rw [partialWord_eq_drop] at htail
  exact ⟨t, ht, hacc, hlen, htail, hcnt, by rw [hovf, decide_eq_true_eq]⟩

end Sys2Proof.Machine

/-! PROOFS of the statements about reset and the order of effects (spec/70_reset_and_hazards.md): hardware reset, and how
far INIT and START restore the block; a command sequence by the one-byte writes of its bytes. -/

namespace Sys2Proof.Machine

open Sys2Proof.Safety

/-! ### Reset, and what a fresh start restores (R105, R107) -/

/-- Settles O27: the step is `State.hardReset`, and the reset block is R23's table. -/
theorem hardwareResetRestoresTheBlock : Obligations.HardwareResetRestoresTheBlock := by
  unfold Obligations.HardwareResetRestoresTheBlock
  intro s cutOff rest hi
  rw [step_of_cons hi]
  rfl

/-- Settles O28: either command is a restart of the block, with seed 0 and with the stored seed. -/
theorem initZeroRestoresAllButIll : Obligations.InitZeroRestoresAllButIll := by
  unfold Obligations.InitZeroRestoresAllButIll
  exact fun s => ⟨⟨s.begin 0x00000000, rfl, rfl⟩, ⟨s.begin s.block.seed, rfl, rfl⟩⟩

/-! ### A command sequence by one-byte writes (R82, R114) -/

/-- A command with its bytes written one at a time: a write of `n` bytes is `n` WR1 (none for WR0), INIT, START and FIN
stand as they are. -/
def oneByteWrites (i : Instr) : List Instr := if isWrite i then (carried i).map Instr.wr1 else [i]

theorem oneByteWrites_of_isWrite {i : Instr} (hw : isWrite i = true) :
    oneByteWrites i = (carried i).map Instr.wr1 := if_pos hw

theorem oneByteWrites_of_not_isWrite {i : Instr} (hw : ¬ isWrite i = true) : oneByteWrites i = [i] := if_neg hw

theorem flatMap_carried_map_wr1 (X : List Byte) : (X.map Instr.wr1).flatMap carried = X := by
  rw [List.flatMap_map]
  exact List.flatMap_singleton' X

theorem execAll_singleton (i : Instr) (s : State) : execAll [i] s = exec i s := by
  obtain ⟨t, ht, -⟩ := exec_block i s
  simp only [execAll, ht]

/-- Writing the bytes of a command one at a time does what the command does. -/
theorem execAll_oneByteWrites (i : Instr) {s : State} (hok : blockOk s.block = true) :
    execAll (oneByteWrites i) s = exec i s := by
  by_cases hw : isWrite i = true
  · have hbytes := flatMap_carried_map_wr1 (carried i)
    have hexec := execAll_writes_of_beat (is := (carried i).map Instr.wr1) hok (by simp [isWrite])
      (by rw [hbytes]; exact carried_length_le i)
    rw [oneByteWrites_of_isWrite hw, hexec, hbytes, exec_of_isWrite hw]
  · rw [oneByteWrites_of_not_isWrite hw, execAll_singleton]

/-- So does a whole command sequence: every command leaves a block that meets R18 (a) to (c) to the next one. -/
theorem execAll_flatMap_oneByteWrites (is : List Instr) {s : State} (hok : blockOk s.block = true) :
    execAll (is.flatMap oneByteWrites) s = execAll is s := by
  induction is generalizing s with
  | nil => rfl
  | cons i is ih =>
    obtain ⟨u, hu, hub⟩ := exec_block i s
    have huok : blockOk u.block = true := hub ▸ blockOk_perform hok i
    have hfirst : execAll (oneByteWrites i) s = .next u := (execAll_oneByteWrites i hok).trans hu
    rw [List.flatMap_cons, execAll_append _ hfirst, ih huok]
    simp only [execAll, hu]

/-- Settles O43: both sequences do what their common sequence of one-byte writes does, so they end in one state. -/
theorem sequencesWithTheSameStreamsAgree : Obligations.SequencesWithTheSameStreamsAgree := by
  unfold Obligations.SequencesWithTheSameStreamsAgree
  intro s is js hok _ hsame
  have hsame : is.flatMap oneByteWrites = js.flatMap oneByteWrites := hsame
  have hexec : execAll is s = execAll js s := by
    rw [← execAll_flatMap_oneByteWrites is hok, hsame, execAll_flatMap_oneByteWrites js hok]
  obtain ⟨t, ht⟩ := execAll_goes_on is s
  exact ⟨t, t, ht, hexec.symm.trans ht, rfl, rfl, fun _ => rfl⟩

end Sys2Proof.Machine
